-- ==== Sys2Proof/Word.lean ====
section
/-! DEFINITION. The word types of the machine (rule R7): every quantity is an unsigned bit vector of the width the
spec gives it, and arithmetic on it wraps at that width. -/

namespace Sys2Proof

/-- 4 bits: a register number (fields X and Y), a row count (field N), a key number. -/
abbrev Nibble := BitVec 4

/-- 8 bits: a byte of memory, a general register, a timer, the stack pointer. -/
abbrev Byte := BitVec 8

/-- 12 bits: the address field NNN. -/
abbrev Addr := BitVec 12

/-- 16 bits: the index register, the program counter, a call-stack entry, an instruction word. -/
abbrev Word := BitVec 16

end Sys2Proof
end

