-- ==== Sys2Proof/Machine/Flags.lean ====
section
/-! DEFINITION. Every flag value the spec gives VF: the truth tables of rule R120 and the collision bit of rule R157. -/

namespace Sys2Proof.Machine

/-- A flag as the byte VF holds, 1 or 0. -/
def flagByte (c : Bool) : Byte := if c then 1 else 0

/-- ADD: 1 iff `a + b > 255`, the ninth bit of the sum (R128). -/
def carryFlag (a b : Byte) : Byte := flagByte (decide (a.toNat + b.toNat > 255))

/-- SUB as `a − b`, and SUBN with the roles reversed: 0 on borrow, 1 otherwise, so 1 when equal (R129, R131). -/
def notBorrowFlag (a b : Byte) : Byte := flagByte (decide ¬ a.toNat < b.toNat)

/-- SHR: bit 0 of the old Vx (R130). -/
def lowBitFlag (a : Byte) : Byte := flagByte (a.getLsbD 0)

/-- SHL: bit 7 of the old Vx (R132). -/
def highBitFlag (a : Byte) : Byte := flagByte (a.getLsbD 7)

end Sys2Proof.Machine
end

