-- ==== Sys2Proof/Config.lean ====
section
/-! DEFINITION. The implementation parameters of rule R6 and the one free value of the machine, the random byte of
rule R10. -/

namespace Sys2Proof

/-- `MEM_SIZE`, bytes of memory (R6; decision D3). -/
abbrev Config.memSize : Nat := 4096

/-- `FONT_BASE`, address of the first font byte (R6). -/
abbrev Config.fontBase : Word := 0x000

/-- `FONT_BYTES`, 16 glyphs of 5 bytes (R6). -/
abbrev Config.fontBytes : Nat := 80

/-- `PROG_BASE`, address where program bytes are loaded (R6). -/
abbrev Config.progBase : Nat := 0x200

/-- `MAX_ROM`, the largest loadable ROM in bytes (R6). -/
abbrev Config.maxRom : Nat := Config.memSize - Config.progBase

/-- `RESET_PC`, the program counter after reset (R6; decision D8). -/
abbrev Config.resetPc : Word := 0x0200

/-- `STACK_DEPTH`, entries of the call stack (R6). -/
abbrev Config.stackDepth : Nat := 16

/-- `FB_W`, pixels in a row of the framebuffer (R6). -/
abbrev Config.fbWidth : Nat := 64

/-- `FB_H`, rows of the framebuffer (R6). -/
abbrev Config.fbHeight : Nat := 32

/-- `NUM_KEYS`, keypad flags (R6). -/
abbrev Config.numKeys : Nat := 16

/-- The random source (R10, R133; decision D22; assumption 1): `Config.rnd k` is the byte `rnd` of the STEP that
executes the `k`-th RND of the run, counted from 0. It has NO body: nothing can be proved about its values, so a
statement about it holds for every sequence of random bytes. -/
opaque Config.rnd : Nat → Byte

end Sys2Proof
end

