-- ==== Sys2Proof/Machine/State.lean ====
section
/-! DEFINITION. The state of the machine (rule R20) as plain data, the faults of rule R190, and the state after reset
(rules R38, R220). -/

namespace Sys2Proof.Machine

/-- Memory (R31): address and byte pairs at strictly rising addresses below `MEM_SIZE`, none equal to what an unlisted
address reads as, which is the byte reset puts there (`Memory.background` in Machine/Memory.lean). -/
abbrev Memory := List Host.Cell

/-- The framebuffer (R29): 32 rows of 64 one-bit pixels; pixel (x, y), which is `FB[y*64 + x]`, is bit `x` of row `y`
(assumption 3). -/
abbrev Framebuffer := Vector (BitVec 64) Config.fbHeight

/-- The complete state of the core (R20), and one field of the model's own, `rndDraws`. -/
structure State where
  /-- `V[0..15]`, the general registers (R21, R22). -/
  v : Vector Byte 16
  /-- `I`, the index register (R23). -/
  i : Word
  /-- `pc`, the program counter (R24, R25). -/
  pc : Word
  /-- `sp`, the number of call-stack entries in use (R26). -/
  sp : Byte
  /-- `S[0..15]`, the call stack (R26). -/
  stack : Vector Word Config.stackDepth
  /-- `DT`, the delay timer (R27). -/
  dt : Byte
  /-- `ST`, the sound timer (R27). -/
  st : Byte
  /-- `K[0..15]`, the keypad flags (R28). -/
  keys : Vector Bool Config.numKeys
  /-- `FB[0..2047]`, the framebuffer (R29). -/
  fb : Framebuffer
  /-- `CHG`, the change flag (R30). -/
  chg : Bool
  /-- `mem[0..4095]` (R31, R50). -/
  mem : Memory
  /-- The model's own: how many random bytes RND has consumed, which picks the next free value of `Config.rnd`
  (R10, R133; assumption 1). -/
  rndDraws : Nat
  deriving DecidableEq, Repr

/-- The state after RESET (R38, R220): everything 0, the font table installed (an empty memory list reads as it, R32),
`pc` at `RESET_PC`. `rndDraws = 0` is assumption 2. -/
def State.reset : State where
  v := Vector.replicate 16 0
  i := 0
  pc := Config.resetPc
  sp := 0
  stack := Vector.replicate Config.stackDepth 0
  dt := 0
  st := 0
  keys := Vector.replicate Config.numKeys false
  fb := Vector.replicate Config.fbHeight 0
  chg := false
  mem := []
  rndDraws := 0

/-- The four sub-causes of OutOfRangeAccess (R192). -/
inductive OutOfRange where
  /-- A byte address at or above `MEM_SIZE`: fetch, DRW, LD B, LD [I],Vx, LD Vx,[I]. -/
  | mem
  /-- CALL with the stack full. -/
  | stackOverflow
  /-- RET with the stack empty. -/
  | stackUnderflow
  /-- SKP or SKNP with a key number above 15. -/
  | key
  deriving DecidableEq, Repr

/-- The three error classes of rule R190. A fault ends its event and leaves the state as it was (R8, R196). -/
inductive Fault where
  /-- Raised by a STEP whose fetched word matches no instruction: the word and the address it was fetched from (R191).
  Safe: the spec's own fault. -/
  | decodeError (word address : Word)
  /-- Raised by a STEP that would index an array outside its bounds: the sub-cause and the index (R192).
  Safe: the spec's own fault (decision D9). -/
  | outOfRange (cause : OutOfRange) (index : Word)
  /-- Raised by LOAD for a ROM longer than `MAX_ROM`: the offered length (R207). Safe: the spec's own fault. -/
  | loadError (length : Nat)
  deriving DecidableEq, Repr

/-- Reasons to give an instruction no meaning. -/
inductive Refusal where
  /-- Raised by an arm of `exec` whose instruction has no meaning yet; no arm is left that raises it. Safe. -/
  | notModelled (mnemonic : String)
  deriving DecidableEq, Repr

/-- What an instruction or a STEP answers. -/
abbrev Result := Host.Outcome State Fault Refusal

end Sys2Proof.Machine
end

