-- ==== Sys2Proof/Machine/Memory.lean ====
section
/-! DEFINITION. Memory (R31 to R33, R50 to R59): the font table, reading and writing a byte, and the canonical form. -/

namespace Sys2Proof.Machine

/-- Glyphs 0 to 7 of the font table, 5 bytes each, top row first (R32). -/
def fontGlyphsLow : List Byte :=
  [0xF0, 0x90, 0x90, 0x90, 0xF0] ++ [0x20, 0x60, 0x20, 0x20, 0x70] ++
  [0xF0, 0x10, 0xF0, 0x80, 0xF0] ++ [0xF0, 0x10, 0xF0, 0x10, 0xF0] ++
  [0x90, 0x90, 0xF0, 0x10, 0x10] ++ [0xF0, 0x80, 0xF0, 0x10, 0xF0] ++
  [0xF0, 0x80, 0xF0, 0x90, 0xF0] ++ [0xF0, 0x10, 0x20, 0x40, 0x40]

/-- Glyphs 8 to F of the font table (R32). -/
def fontGlyphsHigh : List Byte :=
  [0xF0, 0x90, 0xF0, 0x90, 0xF0] ++ [0xF0, 0x90, 0xF0, 0x10, 0xF0] ++
  [0xF0, 0x90, 0xF0, 0x90, 0x90] ++ [0xE0, 0x90, 0xE0, 0x90, 0xE0] ++
  [0xF0, 0x80, 0x80, 0x80, 0xF0] ++ [0xE0, 0x90, 0x90, 0x90, 0xE0] ++
  [0xF0, 0x80, 0xF0, 0x80, 0xF0] ++ [0xF0, 0x80, 0xF0, 0x80, 0x80]

/-- `FONT`, the 80 bytes at 0x000..0x04F, one glyph per hex digit in ascending order (R32; assumption 4). -/
def fontTable : List Byte := fontGlyphsLow ++ fontGlyphsHigh

/-- What reset puts at an address, and what an unlisted address reads as: the font table at 0..79, 0 above (R38). -/
def Memory.background (a : Nat) : Byte := fontTable.getD a 0

/-- The byte at an address. Callers check `a < MEM_SIZE` first (R53). -/
def Memory.read : Memory → Nat → Byte
  | [], a => Memory.background a
  | (k, b) :: rest, a => if k = a then b else Memory.read rest a

/-- Put a cell in front of cells at higher addresses, unless it holds what an unlisted address reads as. -/
def Memory.putCell (a : Nat) (b : Byte) (rest : Memory) : Memory :=
  if b = Memory.background a then rest else (a, b) :: rest

/-- Write one byte, keeping the canonical form. Callers check `a < MEM_SIZE` first (R53). -/
def Memory.write : Memory → Nat → Byte → Memory
  | [], a, b => Memory.putCell a b []
  | (k, c) :: rest, a, b =>
    if k < a then (k, c) :: Memory.write rest a b
    else if k = a then Memory.putCell a b rest
    else Memory.putCell a b ((k, c) :: rest)

/-- The canonical form from a lowest allowed address up: addresses strictly rising and below `MEM_SIZE`, no cell equal
to what an unlisted address reads as. -/
def Memory.wfFrom : Nat → Memory → Bool
  | _, [] => true
  | low, (k, b) :: rest =>
    decide (low ≤ k) && decide (k < Config.memSize) && (b != Memory.background k) && Memory.wfFrom (k + 1) rest

/-- The canonical form of memory: equal memories are equal lists. -/
def Memory.wf (m : Memory) : Bool := Memory.wfFrom 0 m

/-- Write bytes at `base`, `base + 1`, ... (16-bit addresses), ascending (R140). -/
def Memory.store (m : Memory) (base : Word) : List Byte → Memory
  | [] => m
  | b :: bs => Memory.store (Memory.write m base.toNat b) (base + 1) bs

/-- Write bytes at a natural-number address and upwards, ascending: the loader's write (R207). -/
def Memory.loadAt (m : Memory) (a : Nat) : List Byte → Memory
  | [] => m
  | b :: bs => Memory.loadAt (Memory.write m a b) (a + 1) bs

end Sys2Proof.Machine
end

