-- ==== Sys2Proof/Machine/Ops.lean ====
section
/-! DEFINITION. The named operations over the state: registers (R21), the program counter (R25), the call stack (R26),
the framebuffer (R29), bounds (R53), the raising of a fault (R8, R196). -/

namespace Sys2Proof.Machine

/-! ### Registers -/

/-- The number of the flag register VF (R22). -/
def vf : Nibble := 0xF

/-- `V[x]`. -/
def State.readV (s : State) (x : Nibble) : Byte := s.v[x.toNat]'x.isLt

/-- `V[x] <- b`. -/
def State.setV (s : State) (x : Nibble) (b : Byte) : State := { s with v := s.v.set x.toNat b x.isLt }

/-- The write order of the flag-writing instructions: the flag to VF, then the result to Vx, so that for x = F the
result stays (R121). Both values were computed from the state before. -/
def State.setFlagThenV (s : State) (flag : Byte) (x : Nibble) (result : Byte) : State :=
  (s.setV vf flag).setV x result

/-- `I <- a`. -/
def State.setI (s : State) (a : Word) : State := { s with i := a }

/-- `DT <- b`. -/
def State.setDt (s : State) (b : Byte) : State := { s with dt := b }

/-- `ST <- b`. -/
def State.setSt (s : State) (b : Byte) : State := { s with st := b }

/-- `mem <- m`. -/
def State.setMem (s : State) (m : Memory) : State := { s with mem := m }

/-- The framebuffer takes a new value and `CHG <- 1` (R30, R159). -/
def State.setFb (s : State) (fb : Framebuffer) : State := { s with fb := fb, chg := true }

/-- `K[k]`. -/
def State.readKey (s : State) (k : Nibble) : Bool := s.keys[k.toNat]'k.isLt

/-- `K[k] <- b` (R208). -/
def State.setKey (s : State) (k : Nibble) (b : Bool) : State := { s with keys := s.keys.set k.toNat b k.isLt }

/-- The random byte of this STEP, a free value (R10; assumption 1). -/
def State.rndByte (s : State) : Byte := Config.rnd s.rndDraws

/-- One random byte is consumed (R133). -/
def State.consumeRnd (s : State) : State := { s with rndDraws := s.rndDraws + 1 }

/-! ### The program counter (R25) -/

/-- `pc <- a`. -/
def State.setPc (s : State) (a : Word) : State := { s with pc := a }

/-- "Advance +2": `pc <- (pc + 2) mod 2^16`. -/
def State.advance (s : State) : State := s.setPc (s.pc + 2)

/-- "Advance +4 when a conditional skip fires", else +2. -/
def State.skipIf (s : State) (c : Bool) : State := s.setPc (if c then s.pc + 4 else s.pc + 2)

/-! ### Faults (R8, R190 to R196) -/

/-- `raise`, the one operation that takes an exception: the event ends, every write it made is discarded, nothing is
saved and no handler is entered; the fault is the event's whole answer (R8, R196). `State.handle` keeps the state. There
is no return from an exception (R198). -/
def raise (f : Fault) : Result := .fault f

/-- The first of the addresses `base + 0, ..., base + (n-1)` (16-bit sums) that is `>= MEM_SIZE` (R53, R56, R140). -/
def firstOutside (base : Word) (n : Nat) : Option Word :=
  ((List.range n).map fun k => base + BitVec.ofNat 16 k).find? fun a => decide (Config.memSize ≤ a.toNat)

/-- Check all `n` addresses from `base`, lowest offset first, before anything is written (R56). -/
def guardRange (base : Word) (n : Nat) (answer : Result) : Result :=
  match firstOutside base n with
  | some a => raise (.outOfRange .mem a)
  | none => answer

/-! ### The call stack (R26, R100, R102) -/

/-- Push `pc` and go to `target`. An `sp` of 16 or more would write outside the stack and faults; above 16 is reached by
no run (assumption 7). -/
def pushAndGo (s : State) (target : Word) : Result :=
  if h : s.sp.toNat < Config.stackDepth then
    .next { s with stack := s.stack.set s.sp.toNat s.pc h, sp := s.sp + 1, pc := target }
  else raise (.outOfRange .stackOverflow (s.sp.setWidth 16))

/-- Pop the address of the CALL and go 2 beyond it; the popped entry keeps its value. An `sp` above 16, reached by no
run, would read outside the stack and faults (assumption 7). -/
def popAndReturn (s : State) : Result :=
  if s.sp = 0 then raise (.outOfRange .stackUnderflow 0)
  else if h : s.sp.toNat - 1 < Config.stackDepth then
    .next { s with sp := s.sp - 1, pc := s.stack[s.sp.toNat - 1]'h + 2 }
  else raise (.outOfRange .stackOverflow ((s.sp - 1).setWidth 16))

/-! ### The framebuffer (R29, R155) -/

/-- Pixel (x, y), for any x below 64 and y below 32. -/
def Framebuffer.lit (fb : Framebuffer) (x : Fin Config.fbWidth) (y : Fin Config.fbHeight) : Bool :=
  (fb[y.val]'y.isLt).getLsbD x.val

/-- `FB[idx] <- FB[idx] XOR 1` for the pixel (x, y). -/
def Framebuffer.toggle (fb : Framebuffer) (x : Fin Config.fbWidth) (y : Fin Config.fbHeight) : Framebuffer :=
  fb.set y.val ((fb[y.val]'y.isLt) ^^^ BitVec.twoPow 64 x.val) y.isLt

/-- `FB[idx]` by its row-major number `idx = y*64 + x` (R29). -/
def Framebuffer.pixel (fb : Framebuffer) (idx : Fin (Config.fbWidth * Config.fbHeight)) : Bool :=
  Framebuffer.lit fb ⟨idx.val % 64, Nat.mod_lt _ (by decide)⟩ ⟨idx.val / 64, by
    have := idx.isLt; simp only [Config.fbWidth, Config.fbHeight] at *; omega⟩

/-- All pixels 0. -/
def Framebuffer.blank : Framebuffer := Vector.replicate Config.fbHeight 0

end Sys2Proof.Machine
end

