-- ==== Sys2Proof/Machine/Operands.lean ====
section
/-! DEFINITION. The operand forms: immediates (R80), the addresses and byte groups of the memory instructions (R140,
R144, R146, R147), the font address (R143), the key a wait reports (R178), the pixels of a sprite (R157). -/

namespace Sys2Proof.Machine

/-- `zext_16(NNN)` (R80). -/
def zextAddr (nnn : Addr) : Word := nnn.setWidth 16

/-- `zext_16` of a register value. -/
def zextByte (b : Byte) : Word := b.setWidth 16

/-- A 4-bit number as a register value. -/
def zextNibble (k : Nibble) : Byte := k.setWidth 8

/-- `FONT_BASE + zext_16(d) * 5` for the low nibble `d` of a register (R143). -/
def glyphAddress (b : Byte) : Word := Config.fontBase + (b.extractLsb' 0 4).setWidth 16 * 5

/-- The hundreds, tens and units digits of a byte, each in a byte of its own (R144). -/
def bcdDigits (b : Byte) : List Byte :=
  [BitVec.ofNat 8 (b.toNat / 100), BitVec.ofNat 8 (b.toNat / 10 % 10), BitVec.ofNat 8 (b.toNat % 10)]

/-- How many registers `V[0..x]` are: the X + 1 of FX55 and FX65 (R146, R147). -/
def dumpCount (x : Nibble) : Nat := x.toNat + 1

/-- The values of `V[0..x]`, ascending (R146). -/
def dumpBytes (s : State) (x : Nibble) : List Byte := s.v.toList.take (dumpCount x)

/-- `V[k] <- mem[base + k]` for `k` below `n`, ascending (R147). -/
def loadRegs (m : Memory) (base : Word) (v : Vector Byte 16) : Nat → Vector Byte 16
  | 0 => v
  | n + 1 => (loadRegs m base v n).setIfInBounds n (Memory.read m (base + BitVec.ofNat 16 n).toNat)

/-- The new `I` of FX55 and FX65: `(I + X + 1) mod 2^16` (R145). -/
def indexAfter (i : Word) (x : Nibble) : Word := i + BitVec.ofNat 16 (dumpCount x)

/-- `KEY_PICK = lowest`: the least pressed key, if any (R178; decision D15; assumption 9). -/
def lowestKey (s : State) : Option Nibble :=
  ((List.range Config.numKeys).map fun k => BitVec.ofNat 4 k).find? fun k => s.readKey k

/-- The column a sprite's column `c` falls on: `(x0 + c) mod 64`, without 8-bit overflow (R157). -/
def spriteColumn (x0 : Byte) (c : Nat) : Fin Config.fbWidth := ⟨(x0.toNat + c) % 64, Nat.mod_lt _ (by decide)⟩

/-- The row a sprite's row `r` falls on: `(y0 + r) mod 32` (R157). -/
def spriteRow (y0 : Byte) (r : Nat) : Fin Config.fbHeight := ⟨(y0.toNat + r) % 32, Nat.mod_lt _ (by decide)⟩

/-- What the sprite engine carries along: the framebuffer and the collision bit. -/
structure Canvas where
  fb : Framebuffer
  collision : Bool
  deriving DecidableEq, Repr

/-- One sprite bit at its pixel: a 1 reports a lit pixel as a collision and inverts it, a 0 does nothing (R157 d). -/
def drawBit (cv : Canvas) (x : Fin Config.fbWidth) (y : Fin Config.fbHeight) (bit : Bool) : Canvas :=
  if bit then { fb := Framebuffer.toggle cv.fb x y, collision := cv.collision || Framebuffer.lit cv.fb x y } else cv

/-- The first `n` columns of a sprite row, bit 7 being column 0 (R52, R157). -/
def drawRow (x0 y0 : Byte) (r : Nat) (row : Byte) (cv : Canvas) : Nat → Canvas
  | 0 => cv
  | n + 1 => drawBit (drawRow x0 y0 r row cv n) (spriteColumn x0 n) (spriteRow y0 r) (row.getLsbD (7 - n))

/-- The first `n` rows of the sprite at `base`, each row one byte at `base + r` (R157). -/
def drawSprite (m : Memory) (base : Word) (x0 y0 : Byte) (cv : Canvas) : Nat → Canvas
  | 0 => cv
  | n + 1 => drawRow x0 y0 n (Memory.read m (base + BitVec.ofNat 16 n).toNat) (drawSprite m base x0 y0 cv n) 8

end Sys2Proof.Machine
end

