-- ==== Sys2Proof/Machine/Alu.lean ====
section
/-! DEFINITION. Register and ALU instructions (spec/41_alu.md). Every one advances by 2 and none can fault. -/

namespace Sys2Proof.Machine

/-- LD Vx, byte (R122). -/
def execLdByte (x : Nibble) (nn : Byte) (s : State) : Result := .next (s.setV x nn).advance

/-- ADD Vx, byte (R123): wraps, no flag. -/
def execAddByte (x : Nibble) (nn : Byte) (s : State) : Result := .next (s.setV x (s.readV x + nn)).advance

/-- LD Vx, Vy (R124). -/
def execLdReg (x y : Nibble) (s : State) : Result := .next (s.setV x (s.readV y)).advance

/-- OR Vx, Vy (R125): no flag. -/
def execOrReg (x y : Nibble) (s : State) : Result := .next (s.setV x (s.readV x ||| s.readV y)).advance

/-- AND Vx, Vy (R126): no flag. -/
def execAndReg (x y : Nibble) (s : State) : Result := .next (s.setV x (s.readV x &&& s.readV y)).advance

/-- XOR Vx, Vy (R127): no flag. -/
def execXorReg (x y : Nibble) (s : State) : Result := .next (s.setV x (s.readV x ^^^ s.readV y)).advance

/-- ADD Vx, Vy (R128): VF = carry, then the wrapped sum. -/
def execAddReg (x y : Nibble) (s : State) : Result :=
  .next (s.setFlagThenV (carryFlag (s.readV x) (s.readV y)) x (s.readV x + s.readV y)).advance

/-- SUB Vx, Vy (R129): VF = not borrow, then the wrapped difference. -/
def execSubReg (x y : Nibble) (s : State) : Result :=
  .next (s.setFlagThenV (notBorrowFlag (s.readV x) (s.readV y)) x (s.readV x - s.readV y)).advance

/-- SHR Vx, Vy (R130): VF = bit 0 of the old Vx, the result is Vy shifted. -/
def execShrReg (x y : Nibble) (s : State) : Result :=
  .next (s.setFlagThenV (lowBitFlag (s.readV x)) x (s.readV y >>> 1)).advance

/-- SUBN Vx, Vy (R131): VF = not borrow of Vy − Vx, then that difference. -/
def execSubnReg (x y : Nibble) (s : State) : Result :=
  .next (s.setFlagThenV (notBorrowFlag (s.readV y) (s.readV x)) x (s.readV y - s.readV x)).advance

/-- SHL Vx, Vy (R132): VF = bit 7 of the old Vx, the result is Vy shifted. -/
def execShlReg (x y : Nibble) (s : State) : Result :=
  .next (s.setFlagThenV (highBitFlag (s.readV x)) x (s.readV y <<< 1)).advance

/-- RND Vx, byte (R133): the step's random byte AND the immediate; one byte is consumed. -/
def execRnd (x : Nibble) (nn : Byte) (s : State) : Result :=
  .next ((s.setV x (s.rndByte &&& nn)).consumeRnd).advance

end Sys2Proof.Machine
end

