-- ==== Sys2Proof/Machine/Control.lean ====
section
/-! DEFINITION. Control transfer (spec/40_control_flow.md): return, jump, call, jump with offset, conditional skips. -/

namespace Sys2Proof.Machine

/-- RET (R100). -/
def execRet (s : State) : Result := popAndReturn s

/-- JP addr (R101): absolute, no advance. -/
def execJp (nnn : Addr) (s : State) : Result := .next (s.setPc (zextAddr nnn))

/-- CALL addr (R102): the value pushed is the address of the CALL itself. -/
def execCall (nnn : Addr) (s : State) : Result := pushAndGo s (zextAddr nnn)

/-- JP V0, addr (R103): the raw 16-bit sum. -/
def execJpV0 (nnn : Addr) (s : State) : Result := .next (s.setPc (zextAddr nnn + zextByte (s.readV 0)))

/-- SE Vx, byte (R104). -/
def execSeByte (x : Nibble) (nn : Byte) (s : State) : Result := .next (s.skipIf (s.readV x == nn))

/-- SNE Vx, byte (R105). -/
def execSneByte (x : Nibble) (nn : Byte) (s : State) : Result := .next (s.skipIf (s.readV x != nn))

/-- SE Vx, Vy (R106). -/
def execSeReg (x y : Nibble) (s : State) : Result := .next (s.skipIf (s.readV x == s.readV y))

/-- SNE Vx, Vy (R107). -/
def execSneReg (x y : Nibble) (s : State) : Result := .next (s.skipIf (s.readV x != s.readV y))

end Sys2Proof.Machine
end

