-- ==== Sys2Proof/Machine/Display.lean ====
section
/-! DEFINITION. Display instructions (spec/43_display.md): clear screen, draw sprite. -/

namespace Sys2Proof.Machine

/-- CLS (R156): every pixel 0, CHG set. -/
def execCls (s : State) : Result := .next (s.setFb Framebuffer.blank).advance

/-- What DRW leaves on the framebuffer and in the collision bit, from the state before (R157): both coordinates are
read before VF is cleared. -/
def drwCanvas (x y n : Nibble) (s : State) : Canvas :=
  drawSprite s.mem s.i (s.readV x) (s.readV y) { fb := s.fb, collision := false } n.toNat

/-- DRW Vx, Vy, nibble (R157): the row addresses are checked first; VF = collision, CHG set always, I unchanged. -/
def execDrw (x y n : Nibble) (s : State) : Result :=
  guardRange s.i n.toNat
    (.next ((s.setFb (drwCanvas x y n s).fb).setV vf (flagByte (drwCanvas x y n s).collision)).advance)

end Sys2Proof.Machine
end

