-- ==== Sys2Proof/Machine/Index.lean ====
section
/-! DEFINITION. Index register and memory instructions (spec/42_index_memory.md). -/

namespace Sys2Proof.Machine

/-- LD I, addr (R141). -/
def execLdI (nnn : Addr) (s : State) : Result := .next (s.setI (zextAddr nnn)).advance

/-- ADD I, Vx (R142): wraps at 16 bits, no flag. -/
def execAddI (x : Nibble) (s : State) : Result := .next (s.setI (s.i + zextByte (s.readV x))).advance

/-- LD F, Vx (R143): the glyph of Vx's low nibble; no memory access. -/
def execLdF (x : Nibble) (s : State) : Result := .next (s.setI (glyphAddress (s.readV x))).advance

/-- LD B, Vx (R144): three digits at I, I+1, I+2; I is unchanged. -/
def execLdB (x : Nibble) (s : State) : Result :=
  guardRange s.i 3 (.next (s.setMem (Memory.store s.mem s.i (bcdDigits (s.readV x)))).advance)

/-- LD [I], Vx (R146): V0..Vx to memory, I moves past them. -/
def execLdMemVx (x : Nibble) (s : State) : Result :=
  guardRange s.i (dumpCount x)
    (.next ((s.setMem (Memory.store s.mem s.i (dumpBytes s x))).setI (indexAfter s.i x)).advance)

/-- LD Vx, [I] (R147): memory to V0..Vx, I moves past it. -/
def execLdVxMem (x : Nibble) (s : State) : Result :=
  guardRange s.i (dumpCount x)
    (.next (({ s with v := loadRegs s.mem s.i s.v (dumpCount x) } : State).setI (indexAfter s.i x)).advance)

end Sys2Proof.Machine
end

