-- ==== Sys2Proof/Machine/Timers.lean ====
section
/-! DEFINITION. Timer and keypad instructions (spec/44_timers_keypad.md). -/

namespace Sys2Proof.Machine

/-- LD Vx, DT (R170). -/
def execLdVxDt (x : Nibble) (s : State) : Result := .next (s.setV x s.dt).advance

/-- LD DT, Vx (R171). -/
def execLdDtVx (x : Nibble) (s : State) : Result := .next (s.setDt (s.readV x)).advance

/-- LD ST, Vx (R172). -/
def execLdStVx (x : Nibble) (s : State) : Result := .next (s.setSt (s.readV x)).advance

/-- A key skip on `K[V[x]] = level`; a key number above 15 faults (R175, R176, R177). -/
def keySkip (x : Nibble) (level : Bool) (s : State) : Result :=
  if 15 < (s.readV x).toNat then raise (.outOfRange .key (zextByte (s.readV x)))
  else .next (s.skipIf (s.readKey ((s.readV x).setWidth 4) == level))

/-- SKP Vx (R176). -/
def execSkp (x : Nibble) (s : State) : Result := keySkip x true s

/-- SKNP Vx (R177). -/
def execSknp (x : Nibble) (s : State) : Result := keySkip x false s

/-- LD Vx, K (R178): the lowest pressed key and advance, or no change at all while none is pressed. -/
def execLdVxK (x : Nibble) (s : State) : Result :=
  match lowestKey s with
  | some k => .next (s.setV x (zextNibble k)).advance
  | none => .next s

end Sys2Proof.Machine
end

