-- ==== Sys2Proof/Syntax.lean ====
section
/-! DEFINITION. The 34 instructions of rule R74 (spec/opcode_table.json), one constructor per row, in the table's
order. Operands are the fields of rule R71, each of exactly the width the spec gives it. -/

namespace Sys2Proof

/-- An instruction. `x` and `y` are register numbers, `nn` an 8-bit immediate, `nnn` a 12-bit address, `n` a row
count (R71, R80). The constructor's comment gives the pattern of R74. -/
inductive Instr where
  /-- `00E0` CLS (R156). -/
  | cls
  /-- `00EE` RET (R100). -/
  | ret
  /-- `1NNN` JP addr (R101). -/
  | jp (nnn : Addr)
  /-- `2NNN` CALL addr (R102). -/
  | call (nnn : Addr)
  /-- `3XNN` SE Vx, byte (R104). -/
  | seByte (x : Nibble) (nn : Byte)
  /-- `4XNN` SNE Vx, byte (R105). -/
  | sneByte (x : Nibble) (nn : Byte)
  /-- `5XY-` SE Vx, Vy (R106); the low nibble is ignored and is no operand (R78). -/
  | seReg (x y : Nibble)
  /-- `6XNN` LD Vx, byte (R122). -/
  | ldByte (x : Nibble) (nn : Byte)
  /-- `7XNN` ADD Vx, byte (R123). -/
  | addByte (x : Nibble) (nn : Byte)
  /-- `8XY0` LD Vx, Vy (R124). -/
  | ldReg (x y : Nibble)
  /-- `8XY1` OR Vx, Vy (R125). -/
  | orReg (x y : Nibble)
  /-- `8XY2` AND Vx, Vy (R126). -/
  | andReg (x y : Nibble)
  /-- `8XY3` XOR Vx, Vy (R127). -/
  | xorReg (x y : Nibble)
  /-- `8XY4` ADD Vx, Vy (R128). -/
  | addReg (x y : Nibble)
  /-- `8XY5` SUB Vx, Vy (R129). -/
  | subReg (x y : Nibble)
  /-- `8XY6` SHR Vx, Vy (R130). -/
  | shrReg (x y : Nibble)
  /-- `8XY7` SUBN Vx, Vy (R131). -/
  | subnReg (x y : Nibble)
  /-- `8XYE` SHL Vx, Vy (R132). -/
  | shlReg (x y : Nibble)
  /-- `9XY-` SNE Vx, Vy (R107); the low nibble is ignored and is no operand (R78). -/
  | sneReg (x y : Nibble)
  /-- `ANNN` LD I, addr (R141). -/
  | ldI (nnn : Addr)
  /-- `BNNN` JP V0, addr (R103). -/
  | jpV0 (nnn : Addr)
  /-- `CXNN` RND Vx, byte (R133). -/
  | rnd (x : Nibble) (nn : Byte)
  /-- `DXYN` DRW Vx, Vy, nibble (R157). -/
  | drw (x y n : Nibble)
  /-- `EX9E` SKP Vx (R176). -/
  | skp (x : Nibble)
  /-- `EXA1` SKNP Vx (R177). -/
  | sknp (x : Nibble)
  /-- `FX07` LD Vx, DT (R170). -/
  | ldVxDt (x : Nibble)
  /-- `FX0A` LD Vx, K (R178). -/
  | ldVxK (x : Nibble)
  /-- `FX15` LD DT, Vx (R171). -/
  | ldDtVx (x : Nibble)
  /-- `FX18` LD ST, Vx (R172). -/
  | ldStVx (x : Nibble)
  /-- `FX1E` ADD I, Vx (R142). -/
  | addI (x : Nibble)
  /-- `FX29` LD F, Vx (R143). -/
  | ldF (x : Nibble)
  /-- `FX33` LD B, Vx (R144). -/
  | ldB (x : Nibble)
  /-- `FX55` LD [I], Vx (R146). -/
  | ldMemVx (x : Nibble)
  /-- `FX65` LD Vx, [I] (R147). -/
  | ldVxMem (x : Nibble)
  deriving DecidableEq, Repr

end Sys2Proof
end

