-- ==== Sys2Proof/WellFormed.lean ====
section
/-! DEFINITION. Well-formedness. Every operand of `Instr` has exactly the width of its field, so every term of `Instr`
is well formed by its type; what can be ill formed is an instruction WORD (R76: 13902 of the 65536 are undefined).
This file holds the opcode map of rule R74 as rows of mask and match, and the check of a word against it. -/

namespace Sys2Proof

/-- A row of rule R74: `w` selects the instruction iff `w AND mask = match`. The mnemonic is the table's spelling. -/
structure OpcodeRow where
  mnemonic : String
  mask : Word
  pattern : Word
  deriving DecidableEq, Repr

/-- Does the word `w` select this row (R74)? -/
def OpcodeRow.selects (r : OpcodeRow) (w : Word) : Bool := w &&& r.mask == r.pattern

/-- The opcode map of rule R74, in its order. -/
def opcodeTable : List OpcodeRow :=
  [⟨"CLS", 0xFFFF, 0x00E0⟩,
      ⟨"RET", 0xFFFF, 0x00EE⟩,
      ⟨"JP_addr", 0xF000, 0x1000⟩,
      ⟨"CALL_addr", 0xF000, 0x2000⟩,
      ⟨"SE_Vx__byte", 0xF000, 0x3000⟩,
      ⟨"SNE_Vx__byte", 0xF000, 0x4000⟩,
      ⟨"SE_Vx__Vy", 0xF000, 0x5000⟩,
      ⟨"LD_Vx__byte", 0xF000, 0x6000⟩,
      ⟨"ADD_Vx__byte", 0xF000, 0x7000⟩]
   ++ [⟨"LD_Vx__Vy", 0xF00F, 0x8000⟩,
      ⟨"OR_Vx__Vy", 0xF00F, 0x8001⟩,
      ⟨"AND_Vx__Vy", 0xF00F, 0x8002⟩,
      ⟨"XOR_Vx__Vy", 0xF00F, 0x8003⟩,
      ⟨"ADD_Vx__Vy", 0xF00F, 0x8004⟩,
      ⟨"SUB_Vx__Vy", 0xF00F, 0x8005⟩,
      ⟨"SHR_Vx__Vy", 0xF00F, 0x8006⟩,
      ⟨"SUBN_Vx__Vy", 0xF00F, 0x8007⟩,
      ⟨"SHL_Vx__Vy", 0xF00F, 0x800E⟩,
      ⟨"SNE_Vx__Vy", 0xF000, 0x9000⟩]
   ++ [⟨"LD_I__addr", 0xF000, 0xA000⟩,
      ⟨"JP_V0__addr", 0xF000, 0xB000⟩,
      ⟨"RND_Vx__byte", 0xF000, 0xC000⟩,
      ⟨"DRW_Vx__Vy__nibble", 0xF000, 0xD000⟩,
      ⟨"SKP_Vx", 0xF0FF, 0xE09E⟩,
      ⟨"SKNP_Vx", 0xF0FF, 0xE0A1⟩]
   ++ [⟨"LD_Vx__DT", 0xF0FF, 0xF007⟩,
      ⟨"LD_Vx__K", 0xF0FF, 0xF00A⟩,
      ⟨"LD_DT__Vx", 0xF0FF, 0xF015⟩,
      ⟨"LD_ST__Vx", 0xF0FF, 0xF018⟩,
      ⟨"ADD_I__Vx", 0xF0FF, 0xF01E⟩,
      ⟨"LD_F__Vx", 0xF0FF, 0xF029⟩,
      ⟨"LD_B__Vx", 0xF0FF, 0xF033⟩,
      ⟨"LD__I___Vx", 0xF0FF, 0xF055⟩,
      ⟨"LD_Vx___I", 0xF0FF, 0xF065⟩]

/-- A word is well formed (defined) iff some row of the opcode map selects it (R74, R76). -/
def wordWellFormed (w : Word) : Bool := opcodeTable.any fun r => r.selects w

/-- The row of the opcode map an instruction stands for, counted from 0 (R74's column `#` less 1). -/
def Instr.row : Instr → Nat
  | .cls => 0
  | .ret => 1
  | .jp _ => 2
  | .call _ => 3
  | .seByte _ _ => 4
  | .sneByte _ _ => 5
  | .seReg _ _ => 6
  | .ldByte _ _ => 7
  | .addByte _ _ => 8
  | .ldReg _ _ => 9
  | .orReg _ _ => 10
  | .andReg _ _ => 11
  | .xorReg _ _ => 12
  | .addReg _ _ => 13
  | .subReg _ _ => 14
  | .shrReg _ _ => 15
  | .subnReg _ _ => 16
  | .shlReg _ _ => 17
  | .sneReg _ _ => 18
  | .ldI _ => 19
  | .jpV0 _ => 20
  | .rnd _ _ => 21
  | .drw _ _ _ => 22
  | .skp _ => 23
  | .sknp _ => 24
  | .ldVxDt _ => 25
  | .ldVxK _ => 26
  | .ldDtVx _ => 27
  | .ldStVx _ => 28
  | .addI _ => 29
  | .ldF _ => 30
  | .ldB _ => 31
  | .ldMemVx _ => 32
  | .ldVxMem _ => 33

end Sys2Proof
end

