-- ==== Sys2Proof/Machine/Fetch.lean ====
section
/-! DEFINITION. Instruction fetch (R52, R53, R70, R72) and the placing of a word where the next fetch reads it. -/

namespace Sys2Proof.Machine

/-- The two bytes at `pc` and `pc + 1`, as they lie in memory (R52). -/
def fetchBytes (s : State) : List Byte := [Memory.read s.mem s.pc.toNat, Memory.read s.mem (s.pc + 1).toNat]

/-- `MemRead(pc, 2)`: the big-endian word at `pc` and `pc + 1` (R52, R70). -/
def fetchWord (s : State) : Word := wordOfBytes (Memory.read s.mem s.pc.toNat) (Memory.read s.mem (s.pc + 1).toNat)

/-- Go on with the fetched word's instruction, or raise DecodeError with the word and its address (R72, R191). -/
def withDecoded (s : State) (run : Instr → State → Result) : Result :=
  match decodeBytes (fetchBytes s) with
  | .ok (i, _) => run i s
  | .error _ => raise (.decodeError (fetchWord s) s.pc)

/-- Fetch, decode and run: the three lines of rule R72, in their order of faults (R195). -/
def fetchAndRun (s : State) (run : Instr → State → Result) : Result :=
  guardRange s.pc 2 (withDecoded s run)

/-- Store a byte if its address exists. -/
def placeByte (m : Memory) (a : Word) (b : Byte) : Memory :=
  if a.toNat < Config.memSize then Memory.write m a.toNat b else m

/-- Memory with the word's two bytes, big-endian, at `a` and `a + 1` (R52). -/
def placeWord (m : Memory) (a : Word) (w : Word) : Memory :=
  placeByte (placeByte m a (highByte w)) (a + 1) (lowByte w)

end Sys2Proof.Machine
end

