-- ==== Sys2Proof/Machine/Step.lean ====
section
/-! DEFINITION. The STEP event (R72), and the placing of an instruction for the next STEP. -/

namespace Sys2Proof.Machine

/-- STEP (R72): fetch, decode and execute exactly one instruction. The random byte it carries is the free value of
assumption 1. -/
def step (s : State) : Host.Outcome State Fault Refusal := fetchAndRun s exec

/-- `s` with the instruction word stored at `pc` and `pc + 1`, where the next STEP fetches it; it stands for the LOAD
that places a program (assumption 14). Where those addresses do not exist nothing can be placed. -/
def State.withFetchWord (s : State) (nbits w : Nat) : State := s.setMem (placeWord s.mem s.pc (tableWord nbits w))

end Sys2Proof.Machine
end

