-- ==== Sys2Proof/Machine/Events.lean ====
section
/-! DEFINITION. The six host events of rule R9 and what each gives back (R205), the tone and fault outputs. `step` is
STEP alone; a run of the machine is a list of events in any order and ratio (R9, R173). -/

namespace Sys2Proof.Machine

/-- An event of rule R9. STEP's random byte is the free value of assumption 1; a key number is 4 bits (R205, D27). -/
inductive Event where
  /-- RESET (R220). -/
  | reset
  /-- LOAD(bytes) (R207). -/
  | load (bytes : List Byte)
  /-- STEP (R72). -/
  | step
  /-- TICK (R173). -/
  | tick
  /-- KEYSET(k, b) (R208). -/
  | keyset (k : Nibble) (b : Bool)
  /-- FBREAD (R160). -/
  | fbread
  deriving DecidableEq, Repr

/-- What the host gets back from an event (R205). -/
inductive Reply where
  /-- The event completed and returns nothing else: fault output 0. -/
  | done
  /-- The fault output of this event (R196). -/
  | fault (f : Fault)
  /-- The model gives the STEP's instruction no meaning; raised by no instruction of this model. -/
  | refused (r : Refusal)
  /-- `tone_sample` of TICK (R173). -/
  | tone (sample : Bool)
  /-- The result of FBREAD: CHG and the framebuffer (R160). -/
  | frame (chg : Bool) (fb : Framebuffer)
  deriving DecidableEq, Repr

/-- The `tone` output, `shouldSound()`: true exactly when ST = 1 (R174). -/
def State.tone (s : State) : Bool := s.st == 1

/-- One count-down step floored at 0 (R173). -/
def countDown (t : Byte) : Byte := if t = 0 then 0 else t - 1

/-- The state after TICK: each timer counts down on its own (R173). -/
def State.tick (s : State) : State := (s.setDt (countDown s.dt)).setSt (countDown s.st)

/-- The state after FBREAD: CHG cleared, nothing else (R160). -/
def State.clearChg (s : State) : State := { s with chg := false }

/-- LOAD(bytes): refused with LoadError and no write if too long, else the bytes from `PROG_BASE` up (R207). -/
def State.load (s : State) (bytes : List Byte) : Result :=
  if Config.maxRom < bytes.length then raise (.loadError bytes.length)
  else .next (s.setMem (Memory.loadAt s.mem Config.progBase bytes))

/-- Settle an answer at the event boundary: a fault leaves the state as it was and is reported (R196). -/
def State.settle (s : State) : Result → State × Reply
  | .next t => (t, .done)
  | .fault f => (s, .fault f)
  | .refused r => (s, .refused r)

/-- The machine's reaction to an event: the state after it and what the host gets back (R9, R205). -/
def State.handle (s : State) : Event → State × Reply
  | .reset => ({ State.reset with rndDraws := s.rndDraws }, .done)
  | .load bytes => s.settle (s.load bytes)
  | .step => s.settle (Sys2Proof.Machine.step s)
  | .tick => (s.tick, .tone s.tone)
  | .keyset k b => (s.setKey k b, .done)
  | .fbread => (s.clearChg, .frame s.chg s.fb)

/-- A run: the state after a list of events and the replies, first to last. The replies are the sticky record of faults
that rule R197 asks of a model. -/
def State.runEvents (s : State) : List Event → State × List Reply
  | [] => (s, [])
  | e :: es => ((State.runEvents (s.handle e).1 es).1, (s.handle e).2 :: (State.runEvents (s.handle e).1 es).2)

/-- The fault code of rule R193: 0 none, 1 DecodeError, 2 OutOfRangeAccess, 3 LoadError. -/
def Fault.code : Fault → Nat
  | .decodeError _ _ => 1
  | .outOfRange _ _ => 2
  | .loadError _ => 3

/-- The 2-bit sub-cause of rule R193. -/
def OutOfRange.code : OutOfRange → Nat
  | .mem => 0
  | .stackOverflow => 1
  | .stackUnderflow => 2
  | .key => 3

/-- The `info` value of rule R193: the word, the sub-cause and index, or the offered length. -/
def Fault.info : Fault → List Nat
  | .decodeError w _ => [w.toNat]
  | .outOfRange c idx => [c.code, idx.toNat]
  | .loadError len => [len]

/-- The `fault` output's code after an event: 0 for an event that completed (R193, R196). -/
def Reply.faultCode : Reply → Nat
  | .fault f => f.code
  | .done | .refused _ | .tone _ | .frame _ _ => 0

end Sys2Proof.Machine
end

