-- ==== Sys2Proof/Safety.lean ====
section
/-! DEFINITION. The terms claims are stated in: frames, the invariant, reachable states, safe runs, the end of a run. -/

namespace Sys2Proof.Machine

/-! ### Frames -/

/-- The pieces of state of rule R20, and the model's own counter of random bytes. -/
inductive Part where
  | v | i | pc | sp | stack | dt | st | keys | fb | chg | mem | rndDraws
  deriving DecidableEq, Repr

/-- A piece of state is the same in two states; for memory, every byte reads the same. -/
def Part.same (s t : State) : Part → Prop
  | .v => ∀ x, t.readV x = s.readV x
  | .i => t.i = s.i
  | .pc => t.pc = s.pc
  | .sp => t.sp = s.sp
  | .stack => t.stack = s.stack
  | .dt => t.dt = s.dt
  | .st => t.st = s.st
  | .keys => t.keys = s.keys
  | .fb => t.fb = s.fb
  | .chg => t.chg = s.chg
  | .mem => ∀ a, Memory.read t.mem a = Memory.read s.mem a
  | .rndDraws => t.rndDraws = s.rndDraws

/-- `t` is `s` but for the listed pieces of state. -/
def SameExcept (parts : List Part) (s t : State) : Prop := ∀ p, p ∉ parts → Part.same s t p

/-- Every general register but `x` is the same. -/
def OtherRegsSame (x : Nibble) (s t : State) : Prop := ∀ y, y ≠ x → t.readV y = s.readV y

/-- The pieces of state an instruction may write: the column "written by" of rule R20, read by instruction. -/
def partsWritten : Instr → List Part
  | .cls => [.fb, .chg, .pc]
  | .ret => [.sp, .pc]
  | .call _ => [.stack, .sp, .pc]
  | .jp _ | .jpV0 _ | .seByte _ _ | .sneByte _ _ | .seReg _ _ | .sneReg _ _ | .skp _ | .sknp _ => [.pc]
  | .ldByte _ _ | .addByte _ _ | .ldReg _ _ | .orReg _ _ | .andReg _ _ | .xorReg _ _ => [.v, .pc]
  | .addReg _ _ | .subReg _ _ | .shrReg _ _ | .subnReg _ _ | .shlReg _ _ => [.v, .pc]
  | .ldVxDt _ | .ldVxK _ => [.v, .pc]
  | .rnd _ _ => [.v, .rndDraws, .pc]
  | .drw _ _ _ => [.v, .fb, .chg, .pc]
  | .ldI _ | .addI _ | .ldF _ => [.i, .pc]
  | .ldDtVx _ => [.dt, .pc]
  | .ldStVx _ => [.st, .pc]
  | .ldB _ => [.mem, .pc]
  | .ldMemVx _ => [.mem, .i, .pc]
  | .ldVxMem _ => [.v, .i, .pc]

/-- May the instruction write register `r`: its destination X, VF for the six flag-writing instructions, V0..Vx for
LD Vx,[I] (R34, R147)? -/
def registerWritten (r : Nibble) : Instr → Bool
  | .ldByte x _ | .addByte x _ | .ldReg x _ | .orReg x _ | .andReg x _ | .xorReg x _ => r == x
  | .addReg x _ | .subReg x _ | .shrReg x _ | .subnReg x _ | .shlReg x _ => r == x || r == vf
  | .ldVxDt x | .ldVxK x | .rnd x _ => r == x
  | .drw _ _ _ => r == vf
  | .ldVxMem x => decide (r.toNat ≤ x.toNat)
  | .cls | .ret | .jp _ | .call _ | .jpV0 _ | .seByte _ _ | .sneByte _ _ | .seReg _ _ | .sneReg _ _ => false
  | .ldI _ | .addI _ | .ldF _ | .ldB _ | .ldMemVx _ | .ldDtVx _ | .ldStVx _ | .skp _ | .sknp _ => false

/-- Every word the pattern of a row of R74 matches decodes to the instruction its fields give. -/
def DecodesTo (mask pattern : Word) (instr : Word → Instr) : Prop :=
  ∀ w : Word, w &&& mask = pattern → decode w = .ok (instr w)

/-- The same answer with the next state changed by `f`. -/
def mapNext (f : State → State) : Result → Result
  | .next t => .next (f t)
  | .fault r => .fault r
  | .refused r => .refused r

/-- Bit `c` of sprite row `r`, column 0 being bit 7: the byte at `I + r` (R157). -/
def spriteBit (s : State) (r c : Nat) : Bool := (Memory.read s.mem (s.i.toNat + r)).getLsbD (7 - c)

/-- A 1 bit of the `n`-row sprite at `I`, drawn from (`x0`, `y0`), falls on pixel (`px`, `py`), wrapped in both
directions (R157). -/
def SpriteCovers (s : State) (x0 y0 : Byte) (n : Nat) (px : Fin Config.fbWidth) (py : Fin Config.fbHeight) : Prop :=
  ∃ r c, r < n ∧ c < 8 ∧ spriteBit s r c = true ∧ (x0.toNat + c) % 64 = px.val ∧ (y0.toNat + r) % 32 = py.val

/-! ### Invariant and runs -/

/-- The invariant of the machine: memory keeps its canonical form; the stack pointer stays in 0..16 (R26); the program
counter stays so low that its 16-bit wrap is never reached (R25, R103); every stack entry is at most
0x0FFE, as is every address an instruction is fetched from (R102). -/
abbrev Inv (s : State) : Prop :=
  Memory.wf s.mem = true ∧ s.sp.toNat ≤ 16 ∧ s.pc.toNat ≤ 0x10FE ∧ ∀ k : Fin 16, (s.stack[k.val]'k.isLt).toNat ≤ 0x0FFE

/-- A state some list of events reaches from reset (R221). -/
def Reachable (s : State) : Prop := ∃ es, s = (State.runEvents State.reset es).1

/-- A reply that reports no fault and no refusal. -/
def Reply.ok : Reply → Bool
  | .done | .tone _ | .frame _ _ => true
  | .fault _ | .refused _ => false

/-- A safe run: no event of it reported a fault (R197). -/
def SafeRun (s : State) (es : List Event) : Prop := ∀ r ∈ (State.runEvents s es).2, Reply.ok r = true

/-- A STEP answers the same state. The model's own notion, and wider than an end of a run. It holds at a self-jump
1NNN, at a JP V0, addr whose sum is its own address (R103), which rule R234 does not name, and at an LD Vx,K with no key
pressed, which R234 calls a wait and not an end; it leaves out the fault (assumption 17). -/
def AtRest (s : State) : Prop := step s = .next s

/-- The word at `pc` is fetched and is a jump to `pc` itself (R12, R101). -/
def AtSelfJump (s : State) : Prop :=
  s.pc.toNat + 1 < Config.memSize ∧ ∃ nnn : Addr, decode (fetchWord s) = .ok (.jp nnn) ∧ nnn.setWidth 16 = s.pc

/-- The end of a run as rule R234 suggests it: a self-jump 1NNN or a fault, and not a wait for a key. A JP V0, addr to
itself also changes no state; whether it ends a run is left open ("namely a self-jump 1NNN" in R234, "a state-preserving
STEP" in D20), and the model's choice is that it does not. The source defines no end of a run (N26), and the host need not
stop here (assumption 17). -/
def RunEnded (s : State) : Prop := AtSelfJump s ∨ ∃ f, step s = .fault f

/-- All addresses `base`, ..., `base + (n-1)` exist. -/
abbrev RangeExists (base : Word) (n : Nat) : Prop := base.toNat + n ≤ Config.memSize

/-- Is the key whose number is the register value pressed? For values up to 15. -/
def State.keyOf (s : State) (b : Byte) : Bool := s.readKey (b.setWidth 4)

end Sys2Proof.Machine
end

