-- ==== Sys2Proof/Certificates/Slice0/Obligations.lean ====
section
/-! DEFINITION. The statements for the provers. A docstring names the rules a statement formalises (basis stated), or the
sections of the spec and the decisions it rests on (basis derived). -/

open Sys2Proof Sys2Proof.Machine

/-- Decoding an encoded instruction gives it back, for every instruction and every operand. Decode and encode agree (30_encoding.md sections 1 to 3). The numeric opcodes are the spec's general knowledge (G1; assumption 5). -/
def Obligations.DecodeOfEncodeIsIdentity : Prop :=
  ∀ i : Instr, decode (encode i) = .ok i ∧ ∀ rest, decodeBytes (encodeBytes i ++ rest) = .ok (i, rest)

/-- A word that decodes is the encoding of what it decodes to, but for the ignored nibble of 5XY- and 9XY-. No bit of a defined word is dropped but the ignored nibble (30_encoding.md section 4; decision D7, assumption 5). -/
def Obligations.EncodeOfDecodeIsCanonicalWord : Prop :=
  ∀ (w : Word) (i : Instr), decode w = .ok i →
    encode i = if fieldOp w = 0x5#4 ∨ fieldOp w = 0x9#4 then w &&& 0xFFF0#16 else w

/-- A word decodes iff a row of the opcode map selects it; every other word is the DecodeError of that word. Decode is the opcode map (30_encoding.md sections 3 and 4; decisions D4, D6, D7). -/
def Obligations.DecodeSucceedsExactlyOnTheOpcodeMap : Prop :=
  ∀ w : Word,
    ((∃ i, decode w = .ok i) ↔ wordWellFormed w = true) ∧
    (wordWellFormed w = false → decode w = .error (.undefinedWord w))

/-- Nine words written out from the encodings of the spec, one per family, decode to their instructions. A sanity statement over a few words (95_test_vectors.md part 2.1). -/
def Obligations.SampleWordsDecodeAsTheSpecEncodesThem : Prop :=
  decode 0x00EE = .ok .ret ∧ decode 0x1ABC = .ok (.jp 0xABC) ∧ decode 0x5AB7 = .ok (.seReg 0xA 0xB) ∧
  decode 0x7A12 = .ok (.addByte 0xA 0x12) ∧ decode 0x8ABE = .ok (.shlReg 0xA 0xB) ∧ decode 0xA123 = .ok (.ldI 0x123) ∧
  decode 0xDAB5 = .ok (.drw 0xA 0xB 5) ∧ decode 0xEAA1 = .ok (.sknp 0xA) ∧ decode 0xFA65 = .ok (.ldVxMem 0xA) ∧
  decode 0x0000 = .error (.undefinedWord 0x0000) ∧ decode 0x8AB8 = .error (.undefinedWord 0x8AB8)

/-- A STEP executes exactly the instruction that the two bytes at pc decode to, at any pc, odd or even. STEP is fetch, decode, execute (30_encoding.md section 1); an odd pc is legal (20_memory.md section 3). -/
def Obligations.StepRunsTheDecodedInstruction : Prop :=
  ∀ (s : State) (i : Instr), s.pc.toNat + 1 < Config.memSize →
    decode (wordOfBytes (Memory.read s.mem s.pc.toNat) (Memory.read s.mem (s.pc.toNat + 1))) = .ok i →
    step s = exec i s

/-- A STEP faults on the first of: first fetch byte, second fetch byte, undefined word. The priority of faults, the spec's own decision D19 over its policy D9 (60_exceptions.md section 1; assumptions 6 and 7). -/
def Obligations.StepFaultsInTheOrderFetchDecodeExecute : Prop :=
  ∀ s : State,
    (Config.memSize ≤ s.pc.toNat → step s = .fault (.outOfRange .mem s.pc)) ∧
    (s.pc = 0x0FFF → step s = .fault (.outOfRange .mem 0x1000)) ∧
    (s.pc.toNat + 1 < Config.memSize → wordWellFormed (fetchWord s) = false →
      step s = .fault (.decodeError (fetchWord s) s.pc))

/-- An instruction word stored at pc is fetched, decoded and executed by the very next STEP. Fetch reads memory afresh (20_memory.md section 6); withFetchWord stands for a LOAD (assumption 14). -/
def Obligations.PlacedInstructionIsTheOneStepped : Prop :=
  ∀ (i : Instr) (s : State), Memory.wf s.mem = true → s.pc.toNat + 1 < Config.memSize →
    step (s.withFetchWord 16 (encode i).toNat) = exec i (s.withFetchWord 16 (encode i).toNat)

/-- Self-modifying code: bytes stored over the next instruction by LD [I],Vx are what the next STEP fetches. A store is seen by the very next fetch (20_memory.md section 6; decision D26). -/
def Obligations.StoredRegistersAreTheNextFetch : Prop :=
  ∀ (x : Nibble) (s : State), Memory.wf s.mem = true → s.i = s.pc + 2 → 1 ≤ x.toNat → RangeExists s.i (x.toNat + 1) →
    ∃ t, exec (.ldMemVx x) s = .next t ∧ fetchWord t = wordOfBytes (s.readV 0) (s.readV 1)

/-- JP addr sets pc to the zero-extended target and changes nothing else; a jump to itself changes no state. R101. -/
def Obligations.JumpSetsThePc : Prop :=
  DecodesTo 0xF000 0x1000 (fun w => .jp (fieldNNN w)) ∧
  (∀ (nnn : Addr) (s : State), ∃ t, exec (.jp nnn) s = .next t ∧ t.pc = nnn.setWidth 16 ∧ SameExcept [.pc] s t ∧
    (s.pc = nnn.setWidth 16 → t = s)) ∧
  (∀ s : State, ∃ t, exec (.jp 0xFFF) s = .next t ∧ step t = .fault (.outOfRange .mem 0x1000))

/-- CALL addr pushes the pc of the CALL itself and goes to the target; with the stack full it faults. CALL (40_control_flow.md); overflow is decision D9, the stack convention D11; sp above 16 is assumption 7. -/
def Obligations.CallPushesItsOwnAddress : Prop :=
  DecodesTo 0xF000 0x2000 (fun w => .call (fieldNNN w)) ∧
  (∀ (nnn : Addr) (s : State) (h : s.sp.toNat < 16), ∃ t, exec (.call nnn) s = .next t ∧
    t.pc = nnn.setWidth 16 ∧ t.sp.toNat = s.sp.toNat + 1 ∧ t.stack[s.sp.toNat] = s.pc ∧
    (∀ k : Fin 16, k.val ≠ s.sp.toNat → t.stack[k.val] = s.stack[k.val]) ∧ SameExcept [.stack, .sp, .pc] s t) ∧
  (∀ (nnn : Addr) (s : State), 16 ≤ s.sp.toNat →
    exec (.call nnn) s = .fault (.outOfRange .stackOverflow (s.sp.setWidth 16)))

/-- RET pops the call-site address and goes 2 beyond it; with the stack empty it faults. RET (40_control_flow.md); underflow is decision D9, the stack convention D11; sp above 16 is assumption 7. -/
def Obligations.ReturnPopsAndAdvancesByTwo : Prop :=
  DecodesTo 0xFFFF 0x00EE (fun _ => .ret) ∧
  (∀ (s : State) (_ : 0 < s.sp.toNat) (_ : s.sp.toNat ≤ 16), ∃ t, exec .ret s = .next t ∧
    (∀ k : Fin 16, k.val + 1 = s.sp.toNat → t.pc = s.stack[k.val] + 2) ∧ t.sp.toNat + 1 = s.sp.toNat ∧
    SameExcept [.sp, .pc] s t) ∧
  (∀ s : State, s.sp = 0 → exec .ret s = .fault (.outOfRange .stackUnderflow 0)) ∧
  (∀ s : State, 16 < s.sp.toNat → exec .ret s = .fault (.outOfRange .stackOverflow ((s.sp - 1).setWidth 16)))

/-- A CALL followed by a RET continues 2 beyond the CALL with the stack pointer as before. The call-then-return scenario (95_test_vectors.md S9). -/
def Obligations.CallThenReturnComesBackAfterTheCall : Prop :=
  ∀ (nnn : Addr) (s : State), s.sp.toNat < 16 → ∃ t u, exec (.call nnn) s = .next t ∧ exec .ret t = .next u ∧
    u.pc = s.pc + 2 ∧ u.sp = s.sp ∧
    (∀ k : Fin 16, u.stack[k.val] = if k.val = s.sp.toNat then s.pc else s.stack[k.val]) ∧ SameExcept [.stack, .pc] s u

/-- JP V0, addr sets pc to NNN + V0, not masked to 12 bits. JP V0, addr (40_control_flow.md; the fetch fault is decision D9). -/
def Obligations.JumpWithOffsetIsTheRawSum : Prop :=
  DecodesTo 0xF000 0xB000 (fun w => .jpV0 (fieldNNN w)) ∧
  ∀ (nnn : Addr) (s : State), ∃ t, exec (.jpV0 nnn) s = .next t ∧ t.pc.toNat = nnn.toNat + (s.readV 0).toNat ∧
    SameExcept [.pc] s t ∧ (0x1000 ≤ nnn.toNat + (s.readV 0).toNat → step t = .fault (.outOfRange .mem t.pc))

/-- SE Vx, byte and SNE Vx, byte advance by 4 when Vx equals, differs from NN, else by 2, and write nothing but pc. R104 and R105. -/
def Obligations.ImmediateSkipsCompareVxWithNn : Prop :=
  DecodesTo 0xF000 0x3000 (fun w => .seByte (fieldX w) (fieldNN w)) ∧
  DecodesTo 0xF000 0x4000 (fun w => .sneByte (fieldX w) (fieldNN w)) ∧
  (∀ (x : Nibble) (nn : Byte) (s : State), ∃ t, exec (.seByte x nn) s = .next t ∧
    (s.readV x = nn → t.pc = s.pc + 4) ∧ (s.readV x ≠ nn → t.pc = s.pc + 2) ∧ SameExcept [.pc] s t) ∧
  (∀ (x : Nibble) (nn : Byte) (s : State), ∃ t, exec (.sneByte x nn) s = .next t ∧
    (s.readV x ≠ nn → t.pc = s.pc + 4) ∧ (s.readV x = nn → t.pc = s.pc + 2) ∧ SameExcept [.pc] s t)

/-- SE Vx, Vy and SNE Vx, Vy advance by 4 on equal and on different registers, else by 2; the low nibble is ignored. SE Vx, Vy and SNE Vx, Vy (40_control_flow.md; the ignored nibble is decision D7). -/
def Obligations.RegisterSkipsCompareTwoRegisters : Prop :=
  DecodesTo 0xF000 0x5000 (fun w => .seReg (fieldX w) (fieldY w)) ∧
  DecodesTo 0xF000 0x9000 (fun w => .sneReg (fieldX w) (fieldY w)) ∧
  (∀ (x y : Nibble) (s : State), ∃ t, exec (.seReg x y) s = .next t ∧
    (s.readV x = s.readV y → t.pc = s.pc + 4) ∧ (s.readV x ≠ s.readV y → t.pc = s.pc + 2) ∧ SameExcept [.pc] s t) ∧
  (∀ (x y : Nibble) (s : State), ∃ t, exec (.sneReg x y) s = .next t ∧
    (s.readV x ≠ s.readV y → t.pc = s.pc + 4) ∧ (s.readV x = s.readV y → t.pc = s.pc + 2) ∧ SameExcept [.pc] s t)

/-- LD Vx, byte sets Vx to NN and nothing else. R122. -/
def Obligations.LoadImmediateSetsVx : Prop :=
  DecodesTo 0xF000 0x6000 (fun w => .ldByte (fieldX w) (fieldNN w)) ∧
  ∀ (x : Nibble) (nn : Byte) (s : State), ∃ t, exec (.ldByte x nn) s = .next t ∧
    t.readV x = nn ∧ t.pc = s.pc + 2 ∧ OtherRegsSame x s t ∧ SameExcept [.v, .pc] s t

/-- ADD Vx, byte adds modulo 256 and leaves VF alone. R123. -/
def Obligations.AddImmediateWrapsWithoutFlag : Prop :=
  DecodesTo 0xF000 0x7000 (fun w => .addByte (fieldX w) (fieldNN w)) ∧
  ∀ (x : Nibble) (nn : Byte) (s : State), ∃ t, exec (.addByte x nn) s = .next t ∧
    t.readV x = BitVec.ofNat 8 (((s.readV x).toNat + nn.toNat) % 256) ∧ t.pc = s.pc + 2 ∧ OtherRegsSame x s t ∧ SameExcept [.v, .pc] s t

/-- LD Vx, Vy copies Vy to Vx and nothing else. R124. -/
def Obligations.CopyRegisterSetsVx : Prop :=
  DecodesTo 0xF00F 0x8000 (fun w => .ldReg (fieldX w) (fieldY w)) ∧
  ∀ (x y : Nibble) (s : State), ∃ t, exec (.ldReg x y) s = .next t ∧
    t.readV x = s.readV y ∧ t.pc = s.pc + 2 ∧ OtherRegsSame x s t ∧ SameExcept [.v, .pc] s t

/-- OR, AND and XOR Vx, Vy are bitwise and leave VF alone. R125, R126 and R127. -/
def Obligations.LogicOperationsKeepTheFlag : Prop :=
  DecodesTo 0xF00F 0x8001 (fun w => .orReg (fieldX w) (fieldY w)) ∧ DecodesTo 0xF00F 0x8002 (fun w => .andReg (fieldX w) (fieldY w)) ∧
  DecodesTo 0xF00F 0x8003 (fun w => .xorReg (fieldX w) (fieldY w)) ∧
  (∀ (x y : Nibble) (s : State), ∃ t, exec (.orReg x y) s = .next t ∧
    t.readV x = s.readV x ||| s.readV y ∧ t.pc = s.pc + 2 ∧ OtherRegsSame x s t ∧ SameExcept [.v, .pc] s t) ∧
  (∀ (x y : Nibble) (s : State), ∃ t, exec (.andReg x y) s = .next t ∧
    t.readV x = s.readV x &&& s.readV y ∧ t.pc = s.pc + 2 ∧ OtherRegsSame x s t ∧ SameExcept [.v, .pc] s t) ∧
  (∀ (x y : Nibble) (s : State), ∃ t, exec (.xorReg x y) s = .next t ∧
    t.readV x = s.readV x ^^^ s.readV y ∧ t.pc = s.pc + 2 ∧ OtherRegsSame x s t ∧ SameExcept [.v, .pc] s t)

/-- The truth tables of ADD, SUB, SUBN, SHR and SHL, bit for bit, for X and Y distinct from VF; register arithmetic wraps modulo 256. R120, the truth tables the source calls exact. The forms with X = F or Y = F are in the statements that follow. -/
def Obligations.FlagTruthTables : Prop :=
  (∀ (x y : Nibble) (s : State), x ≠ 0xF → y ≠ 0xF →
    (∃ t, exec (.addReg x y) s = .next t ∧
      t.readV 0xF = (if (s.readV x).toNat + (s.readV y).toNat > 255 then 1 else 0) ∧
      (t.readV x).toNat = ((s.readV x).toNat + (s.readV y).toNat) % 256) ∧
    (∃ t, exec (.subReg x y) s = .next t ∧
      t.readV 0xF = (if (s.readV x).toNat < (s.readV y).toNat then 0 else 1) ∧
      (t.readV x).toNat = ((s.readV x).toNat + 256 - (s.readV y).toNat) % 256) ∧
    (∃ t, exec (.subnReg x y) s = .next t ∧
      t.readV 0xF = (if (s.readV y).toNat < (s.readV x).toNat then 0 else 1) ∧
      (t.readV x).toNat = ((s.readV y).toNat + 256 - (s.readV x).toNat) % 256) ∧
    (∃ t, exec (.shrReg x y) s = .next t ∧
      (t.readV 0xF).toNat = (s.readV x).toNat % 2 ∧ (t.readV x).toNat = (s.readV y).toNat / 2) ∧
    (∃ t, exec (.shlReg x y) s = .next t ∧
      (t.readV 0xF).toNat = (s.readV x).toNat / 128 ∧ (t.readV x).toNat = (s.readV y).toNat * 2 % 256)) ∧
  (∀ (x : Nibble) (nn : Byte) (s : State), ∃ t, exec (.addByte x nn) s = .next t ∧
    (t.readV x).toNat = ((s.readV x).toNat + nn.toNat) % 256 ∧ (x ≠ 0xF → t.readV 0xF = s.readV 0xF))

/-- ADD Vx, Vy: the carry to VF, then the result to Vx, both computed from the registers before, for every X and Y. ADD Vx, Vy for every X and Y (41_alu.md); Y = F is decision D12. -/
def Obligations.AddRegistersSetsCarry : Prop :=
  DecodesTo 0xF00F 0x8004 (fun w => .addReg (fieldX w) (fieldY w)) ∧
  ∀ (x y : Nibble) (s : State), ∃ t, exec (.addReg x y) s = .next t ∧
    t.readV x = s.readV x + s.readV y ∧
    (x ≠ 0xF → t.readV 0xF = (if 255 < (s.readV x).toNat + (s.readV y).toNat then 1 else 0)) ∧
    (∀ r, r ≠ x → r ≠ 0xF → t.readV r = s.readV r) ∧ t.pc = s.pc + 2 ∧ SameExcept [.v, .pc] s t

/-- SUB Vx, Vy: not-borrow of Vx - Vy to VF, then the result to Vx, both computed from the registers before, for every X and Y. SUB Vx, Vy for every X and Y (41_alu.md); Y = F is decision D12. -/
def Obligations.SubRegistersSetsNotBorrow : Prop :=
  DecodesTo 0xF00F 0x8005 (fun w => .subReg (fieldX w) (fieldY w)) ∧
  ∀ (x y : Nibble) (s : State), ∃ t, exec (.subReg x y) s = .next t ∧
    t.readV x = s.readV x - s.readV y ∧
    (x ≠ 0xF → t.readV 0xF = (if s.readV x < s.readV y then 0 else 1)) ∧
    (∀ r, r ≠ x → r ≠ 0xF → t.readV r = s.readV r) ∧ t.pc = s.pc + 2 ∧ SameExcept [.v, .pc] s t

/-- SHR Vx, Vy: bit 0 of the old Vx to VF, then the result to Vx, both computed from the registers before, for every X and Y. SHR Vx, Vy for every X and Y (41_alu.md); Y = F is decision D12. -/
def Obligations.ShiftRightTakesVyAndFlagsVx : Prop :=
  DecodesTo 0xF00F 0x8006 (fun w => .shrReg (fieldX w) (fieldY w)) ∧
  ∀ (x y : Nibble) (s : State), ∃ t, exec (.shrReg x y) s = .next t ∧
    t.readV x = s.readV y >>> 1 ∧
    (x ≠ 0xF → t.readV 0xF = (s.readV x &&& 1)) ∧
    (∀ r, r ≠ x → r ≠ 0xF → t.readV r = s.readV r) ∧ t.pc = s.pc + 2 ∧ SameExcept [.v, .pc] s t

/-- SUBN Vx, Vy: not-borrow of Vy - Vx to VF, then the result to Vx, both computed from the registers before, for every X and Y. SUBN Vx, Vy for every X and Y (41_alu.md); Y = F is decision D12. -/
def Obligations.SubnRegistersSetsNotBorrow : Prop :=
  DecodesTo 0xF00F 0x8007 (fun w => .subnReg (fieldX w) (fieldY w)) ∧
  ∀ (x y : Nibble) (s : State), ∃ t, exec (.subnReg x y) s = .next t ∧
    t.readV x = s.readV y - s.readV x ∧
    (x ≠ 0xF → t.readV 0xF = (if s.readV y < s.readV x then 0 else 1)) ∧
    (∀ r, r ≠ x → r ≠ 0xF → t.readV r = s.readV r) ∧ t.pc = s.pc + 2 ∧ SameExcept [.v, .pc] s t

/-- SHL Vx, Vy: bit 7 of the old Vx to VF, then the result to Vx, both computed from the registers before, for every X and Y. SHL Vx, Vy for every X and Y (41_alu.md); Y = F is decision D12. -/
def Obligations.ShiftLeftTakesVyAndFlagsVx : Prop :=
  DecodesTo 0xF00F 0x800E (fun w => .shlReg (fieldX w) (fieldY w)) ∧
  ∀ (x y : Nibble) (s : State), ∃ t, exec (.shlReg x y) s = .next t ∧
    t.readV x = s.readV y <<< 1 ∧
    (x ≠ 0xF → t.readV 0xF = (s.readV x >>> 7)) ∧
    (∀ r, r ≠ x → r ≠ 0xF → t.readV r = s.readV r) ∧ t.pc = s.pc + 2 ∧ SameExcept [.v, .pc] s t

/-- RND Vx, byte sets Vx to the random byte AND NN and consumes one random byte, whatever that byte is. RND (41_alu.md section 4); the byte is the free value of assumption 1. -/
def Obligations.RandomIsMaskedAndConsumesOneByte : Prop :=
  DecodesTo 0xF000 0xC000 (fun w => .rnd (fieldX w) (fieldNN w)) ∧
  ∀ (x : Nibble) (nn : Byte) (s : State), ∃ t, exec (.rnd x nn) s = .next t ∧
    t.readV x = Config.rnd s.rndDraws &&& nn ∧ t.readV x &&& ~~~nn = 0 ∧ t.rndDraws = s.rndDraws + 1 ∧ t.pc = s.pc + 2 ∧
    OtherRegsSame x s t ∧ SameExcept [.v, .rndDraws, .pc] s t

/-- LD I, addr sets I to NNN, a valid address, and nothing else. R141. -/
def Obligations.SetIndexLoadsTheAddress : Prop :=
  DecodesTo 0xF000 0xA000 (fun w => .ldI (fieldNNN w)) ∧
  ∀ (nnn : Addr) (s : State), ∃ t, exec (.ldI nnn) s = .next t ∧ t.i = nnn.setWidth 16 ∧ t.i.toNat < Config.memSize ∧
    t.pc = s.pc + 2 ∧ SameExcept [.i, .pc] s t

/-- ADD I, Vx adds the unsigned register value modulo 2^16, with no flag and no bounds check. ADD I, Vx (42_index_memory.md section 2; decision D32). -/
def Obligations.AddIndexWrapsAtSixteenBits : Prop :=
  DecodesTo 0xF0FF 0xF01E (fun w => .addI (fieldX w)) ∧
  ∀ (x : Nibble) (s : State), ∃ t, exec (.addI x) s = .next t ∧
    t.i.toNat = (s.i.toNat + (s.readV x).toNat) % 65536 ∧ t.pc = s.pc + 2 ∧ SameExcept [.i, .pc] s t

/-- LD F, Vx points I at the glyph of the low nibble of Vx, without touching memory. R143. -/
def Obligations.GlyphAddressIsFiveTimesTheLowNibble : Prop :=
  DecodesTo 0xF0FF 0xF029 (fun w => .ldF (fieldX w)) ∧
  ∀ (x : Nibble) (s : State), ∃ t, exec (.ldF x) s = .next t ∧
    t.i.toNat = Config.fontBase.toNat + 5 * ((s.readV x).toNat % 16) ∧ t.i.toNat + 5 ≤ Config.fontBytes ∧
    t.pc = s.pc + 2 ∧ SameExcept [.i, .pc] s t

/-- LD B, Vx stores the hundreds, tens and units digits of Vx at I, I+1, I+2 and changes nothing else. LD B, Vx (42_index_memory.md section 3); the premise on memory is the invariant Inv. -/
def Obligations.BcdStoresThreeDigits : Prop :=
  DecodesTo 0xF0FF 0xF033 (fun w => .ldB (fieldX w)) ∧
  ∀ (x : Nibble) (s : State), Memory.wf s.mem = true → RangeExists s.i 3 → ∃ t, exec (.ldB x) s = .next t ∧
    (∃ h d u : Nat, Memory.read t.mem s.i.toNat = BitVec.ofNat 8 h ∧ Memory.read t.mem (s.i.toNat + 1) = BitVec.ofNat 8 d ∧
      Memory.read t.mem (s.i.toNat + 2) = BitVec.ofNat 8 u ∧ h ≤ 2 ∧ d ≤ 9 ∧ u ≤ 9 ∧
      100 * h + 10 * d + u = (s.readV x).toNat) ∧
    (∀ a, (a < s.i.toNat ∨ s.i.toNat + 3 ≤ a) → Memory.read t.mem a = Memory.read s.mem a) ∧
    t.pc = s.pc + 2 ∧ SameExcept [.mem, .pc] s t

/-- LD [I], Vx stores V0..Vx at I..I+X, adds X+1 to I and changes nothing else. LD [I], Vx (42_index_memory.md section 3); the premise on memory is the invariant Inv. -/
def Obligations.RegisterDumpStoresAndMovesIndex : Prop :=
  DecodesTo 0xF0FF 0xF055 (fun w => .ldMemVx (fieldX w)) ∧
  ∀ (x : Nibble) (s : State), Memory.wf s.mem = true → RangeExists s.i (x.toNat + 1) → ∃ t, exec (.ldMemVx x) s = .next t ∧
    (∀ k : Nibble, k.toNat ≤ x.toNat → Memory.read t.mem (s.i.toNat + k.toNat) = s.readV k) ∧
    (∀ a, (a < s.i.toNat ∨ s.i.toNat + x.toNat < a) → Memory.read t.mem a = Memory.read s.mem a) ∧
    t.i.toNat = s.i.toNat + x.toNat + 1 ∧ t.pc = s.pc + 2 ∧ SameExcept [.mem, .i, .pc] s t

/-- LD Vx, [I] loads V0..Vx from I..I+X, adds X+1 to I and changes nothing else. LD Vx, [I] (42_index_memory.md section 3). -/
def Obligations.RegisterLoadReadsAndMovesIndex : Prop :=
  DecodesTo 0xF0FF 0xF065 (fun w => .ldVxMem (fieldX w)) ∧
  ∀ (x : Nibble) (s : State), RangeExists s.i (x.toNat + 1) → ∃ t, exec (.ldVxMem x) s = .next t ∧
    (∀ k : Nibble, k.toNat ≤ x.toNat → t.readV k = Memory.read s.mem (s.i.toNat + k.toNat)) ∧
    (∀ k : Nibble, x.toNat < k.toNat → t.readV k = s.readV k) ∧
    t.i.toNat = s.i.toNat + x.toNat + 1 ∧ t.pc = s.pc + 2 ∧ SameExcept [.v, .i, .pc] s t

/-- A completed LD [I], Vx or LD Vx, [I] leaves I = I + X + 1, at most 0x1000: the 16-bit wrap is never reached. R145. -/
def Obligations.DumpAndLoadPostIncrementNeverWraps : Prop :=
  ∀ (x : Nibble) (s : State),
    (∀ t, (exec (.ldMemVx x) s = .next t ∨ exec (.ldVxMem x) s = .next t) →
      t.i = s.i + BitVec.ofNat 16 (x.toNat + 1) ∧ t.i.toNat = s.i.toNat + x.toNat + 1 ∧ t.i.toNat ≤ Config.memSize) ∧
    (s.i.toNat + x.toNat < Config.memSize →
      (∃ t, exec (.ldMemVx x) s = .next t) ∧ (∃ t, exec (.ldVxMem x) s = .next t))

/-- LD [I], Vx, then I set back, then LD Vx, [I] restores V0..Vx whatever they were changed to. FX55 followed by FX65 at the same I (42_index_memory.md section 3). -/
def Obligations.DumpThenLoadRestoresRegisters : Prop :=
  ∀ (x : Nibble) (s : State), Memory.wf s.mem = true → RangeExists s.i (x.toNat + 1) →
    ∃ t, exec (.ldMemVx x) s = .next t ∧ ∀ u : State, u.mem = t.mem → u.i = s.i →
      ∃ r, exec (.ldVxMem x) u = .next r ∧ ∀ k : Nibble, k.toNat ≤ x.toNat → r.readV k = s.readV k

/-- LD B, LD [I], LD Vx,[I] and DRW fault with the lowest address that does not exist. The memory faults (decisions D9, D10; assumption 7). -/
def Obligations.MemoryInstructionsFaultBeforeWriting : Prop :=
  ∀ (x y n : Nibble) (s : State),
    (¬ RangeExists s.i 3 →
      exec (.ldB x) s = .fault (.outOfRange .mem (if Config.memSize ≤ s.i.toNat then s.i else 0x1000))) ∧
    (¬ RangeExists s.i (x.toNat + 1) →
      exec (.ldMemVx x) s = .fault (.outOfRange .mem (if Config.memSize ≤ s.i.toNat then s.i else 0x1000)) ∧
      exec (.ldVxMem x) s = .fault (.outOfRange .mem (if Config.memSize ≤ s.i.toNat then s.i else 0x1000))) ∧
    (1 ≤ n.toNat → ¬ RangeExists s.i n.toNat →
      exec (.drw x y n) s = .fault (.outOfRange .mem (if Config.memSize ≤ s.i.toNat then s.i else 0x1000))) ∧
    (∃ t, exec (.drw x y 0) s = .next t)

/-- CLS makes every pixel 0 and sets the change flag, and leaves VF and all else alone. R156. -/
def Obligations.ClearScreenZeroesEveryPixel : Prop :=
  DecodesTo 0xFFFF 0x00E0 (fun _ => .cls) ∧
  ∀ s : State, ∃ t, exec .cls s = .next t ∧ (∀ idx, Framebuffer.pixel t.fb idx = false) ∧ t.chg = true ∧
    t.pc = s.pc + 2 ∧ SameExcept [.fb, .chg, .pc] s t

/-- DRW inverts exactly the pixels its sprite bits cover, wrapped both ways, and reports collision in VF. DRW as a set of pixels, against the loop the model runs (43_display.md section 3; decisions D13, D14). -/
def Obligations.DrawXorsTheSpriteWithWrapAndCollision : Prop :=
  DecodesTo 0xF000 0xD000 (fun w => .drw (fieldX w) (fieldY w) (fieldN w)) ∧
  ∀ (x y n : Nibble) (s : State), (n = 0 ∨ RangeExists s.i n.toNat) → ∃ t, exec (.drw x y n) s = .next t ∧
    (∀ px py, Framebuffer.lit t.fb px py = true ↔
      ¬ (Framebuffer.lit s.fb px py = true ↔ SpriteCovers s (s.readV x) (s.readV y) n.toNat px py)) ∧
    (t.readV 0xF = 1 ∨ t.readV 0xF = 0) ∧
    (t.readV 0xF = 1 ↔ ∃ px py, Framebuffer.lit s.fb px py = true ∧ SpriteCovers s (s.readV x) (s.readV y) n.toNat px py) ∧
    t.chg = true ∧ t.pc = s.pc + 2 ∧ OtherRegsSame 0xF s t ∧ SameExcept [.v, .fb, .chg, .pc] s t

/-- Drawing the same sprite at the same place twice restores the framebuffer and reports collision iff a bit was newly set. The double-XOR law (43_display.md section 4), which the spec derives. -/
def Obligations.DrawTwiceRestoresTheFramebuffer : Prop :=
  ∀ (x y n : Nibble) (s t : State), exec (.drw x y n) s = .next t → t.readV x = s.readV x → t.readV y = s.readV y →
    ∃ u, exec (.drw x y n) t = .next u ∧ u.fb = s.fb ∧
      (u.readV 0xF = 1 ↔ ∃ px py, Framebuffer.lit s.fb px py = false ∧
        SpriteCovers s (s.readV x) (s.readV y) n.toNat px py) ∧ (u.readV 0xF = 1 ∨ u.readV 0xF = 0)

/-- FBREAD returns CHG and the framebuffer, then clears CHG and nothing else; a second one returns CHG = 0. R160. -/
def Obligations.FbReadReturnsAndClearsTheChangeFlag : Prop :=
  ∀ s : State, (s.handle .fbread).2 = .frame s.chg s.fb ∧ (s.handle .fbread).1.chg = false ∧
    SameExcept [.chg] s (s.handle .fbread).1 ∧
    ((s.handle .fbread).1.handle .fbread).2 = .frame false s.fb ∧
    (s.chg = true → (s.handle .step).1.chg = true ∧ (s.handle .tick).1.chg = true)

/-- CHG is set by every completed CLS and DRW, cleared only by FBREAD and RESET, and read by no instruction. R30. -/
def Obligations.ChangeFlagIsSetByDrawingAndReadByNoInstruction : Prop :=
  (∀ (s t : State), exec .cls s = .next t → t.chg = true) ∧
  (∀ (x y n : Nibble) (s t : State), exec (.drw x y n) s = .next t → t.chg = true) ∧
  (∀ (i : Instr) (s t : State), i ≠ .cls → (∀ x y n, i ≠ .drw x y n) → exec i s = .next t → t.chg = s.chg) ∧
  (∀ (i : Instr) (s t : State), exec i s = .next t → t.fb ≠ s.fb → t.chg = true) ∧
  (∀ (s : State) (e : Event), e ≠ .fbread → e ≠ .reset → s.chg = true → (s.handle e).1.chg = true) ∧
  (∀ s : State, (s.handle .fbread).1.chg = false ∧ (s.handle .reset).1.chg = false) ∧
  (∀ (i : Instr) (s : State) (b : Bool), exec i { s with chg := b } =
    mapNext (fun t => { t with chg := if i = .cls ∨ (∃ x y n, i = .drw x y n) then true else b }) (exec i s))

/-- LD Vx, DT copies the delay timer to Vx and leaves the timer alone. R170. -/
def Obligations.LoadDelayTimerReadsDt : Prop :=
  DecodesTo 0xF0FF 0xF007 (fun w => .ldVxDt (fieldX w)) ∧
  ∀ (x : Nibble) (s : State), ∃ t, exec (.ldVxDt x) s = .next t ∧ t.readV x = s.dt ∧ t.dt = s.dt ∧ t.pc = s.pc + 2 ∧ OtherRegsSame x s t ∧ SameExcept [.v, .pc] s t

/-- LD DT, Vx sets the delay timer to any value; the first decrement is that of the next TICK. R171. -/
def Obligations.SetDelayTimerWritesDt : Prop :=
  DecodesTo 0xF0FF 0xF015 (fun w => .ldDtVx (fieldX w)) ∧
  ∀ (x : Nibble) (s : State), ∃ t, exec (.ldDtVx x) s = .next t ∧ t.dt = s.readV x ∧ t.pc = s.pc + 2 ∧
    SameExcept [.dt, .pc] s t ∧ (t.handle .tick).1.dt.toNat = (s.readV x).toNat - 1

/-- LD ST, Vx sets the sound timer; the tone is true at once iff Vx = 1; no instruction reads ST. R172. -/
def Obligations.SetSoundTimerWritesSt : Prop :=
  DecodesTo 0xF0FF 0xF018 (fun w => .ldStVx (fieldX w)) ∧
  (∀ (x : Nibble) (s : State), ∃ t, exec (.ldStVx x) s = .next t ∧ t.st = s.readV x ∧ t.pc = s.pc + 2 ∧
    SameExcept [.st, .pc] s t ∧ (t.tone = true ↔ s.readV x = 1) ∧ ((t.handle .tick).1.tone = true ↔ s.readV x = 2)) ∧
  (∀ (i : Instr) (s : State) (b : Byte), (∀ x, i ≠ .ldStVx x) →
    exec i { s with st := b } = mapNext (fun t => { t with st := b }) (exec i s)) ∧
  (∀ (x : Nibble) (s : State) (b : Byte), exec (.ldStVx x) { s with st := b } = exec (.ldStVx x) s)

/-- TICK decrements each timer floored at 0, returns the tone before the decrement, and changes nothing else. TICK (44_timers_keypad.md section 2; decision D21). -/
def Obligations.TickCountsDownEachTimerAndSamplesTheTone : Prop :=
  ∀ s : State, (s.handle .tick).2 = .tone (decide (s.st = 1)) ∧ (s.handle .tick).1.dt.toNat = s.dt.toNat - 1 ∧
    (s.handle .tick).1.st.toNat = s.st.toNat - 1 ∧ SameExcept [.dt, .st] s (s.handle .tick).1

/-- Over a run of TICKs the tone sample is true exactly at the ST-th TICK, and the timers never go below 0. The tone law (44_timers_keypad.md section 2; decision D21). -/
def Obligations.ExactlyOneToneSampleInARunOfTicks : Prop :=
  ∀ (m : Nat) (s : State),
    (State.runEvents s (List.replicate m .tick)).2 = (List.range m).map (fun k => Reply.tone (decide (s.st.toNat = k + 1))) ∧
    (State.runEvents s (List.replicate m .tick)).1.st.toNat = s.st.toNat - m ∧
    (State.runEvents s (List.replicate m .tick)).1.dt.toNat = s.dt.toNat - m

/-- SKP and SKNP skip on a pressed and on a released key Vx; a key number above 15 faults unmasked. SKP and SKNP (44_timers_keypad.md section 3; the fault is decision D9). -/
def Obligations.KeySkipsTestTheKeyLevel : Prop :=
  DecodesTo 0xF0FF 0xE09E (fun w => .skp (fieldX w)) ∧ DecodesTo 0xF0FF 0xE0A1 (fun w => .sknp (fieldX w)) ∧
  (∀ (x k : Nibble) (s : State), (s.readV x).toNat = k.toNat →
    (∃ t, exec (.skp x) s = .next t ∧ t.pc = (if s.readKey k then s.pc + 4 else s.pc + 2) ∧ SameExcept [.pc] s t) ∧
    (∃ t, exec (.sknp x) s = .next t ∧ t.pc = (if s.readKey k then s.pc + 2 else s.pc + 4) ∧ SameExcept [.pc] s t)) ∧
  (∀ (x : Nibble) (s : State), 15 < (s.readV x).toNat →
    exec (.skp x) s = .fault (.outOfRange .key ((s.readV x).setWidth 16)) ∧
    exec (.sknp x) s = .fault (.outOfRange .key ((s.readV x).setWidth 16)))

/-- LD Vx, K stores the lowest pressed key and advances, or changes nothing at all while no key is pressed. LD Vx, K (44_timers_keypad.md section 3; decision D15). -/
def Obligations.WaitForKeyReportsTheLowestPressedKey : Prop :=
  DecodesTo 0xF0FF 0xF00A (fun w => .ldVxK (fieldX w)) ∧
  (∀ (x k : Nibble) (s : State), s.readKey k = true → (∀ j : Nibble, j.toNat < k.toNat → s.readKey j = false) →
    ∃ t, exec (.ldVxK x) s = .next t ∧ (t.readV x).toNat = k.toNat ∧ t.pc = s.pc + 2 ∧ OtherRegsSame x s t ∧ SameExcept [.v, .pc] s t) ∧
  (∀ (x : Nibble) (s : State), (∀ k, s.readKey k = false) → exec (.ldVxK x) s = .next s)

/-- KEYSET(k, b) writes one keypad flag and changes nothing else, and cannot fault. R208. -/
def Obligations.KeysetWritesOneFlag : Prop :=
  ∀ (k : Nibble) (b : Bool) (s : State), (s.handle (.keyset k b)).2 = .done ∧
    (s.handle (.keyset k b)).1.readKey k = b ∧ (∀ j, j ≠ k → (s.handle (.keyset k b)).1.readKey j = s.readKey j) ∧
    SameExcept [.keys] s (s.handle (.keyset k b)).1 ∧ (s.readKey k = b → (s.handle (.keyset k b)).1 = s)

/-- After RESET everything is 0, the font table stands at 0..79, zeros above it, and pc = 0x200. The state after RESET (10_state.md section 11); pc is decision D8, the font bytes general knowledge G2 (assumptions 4, 10). -/
def Obligations.ResetStateIsZeroWithTheFontInstalled : Prop :=
  (∀ x, State.reset.readV x = 0) ∧ State.reset.i = 0 ∧ State.reset.sp = 0 ∧ (∀ k : Fin 16, State.reset.stack[k.val] = 0) ∧
  State.reset.dt = 0 ∧ State.reset.st = 0 ∧ (∀ k, State.reset.readKey k = false) ∧
  (∀ idx, Framebuffer.pixel State.reset.fb idx = false) ∧ State.reset.chg = false ∧ State.reset.tone = false ∧
  State.reset.pc = 0x0200 ∧ fontTable.length = 80 ∧
  (∀ a, a < 80 → Memory.read State.reset.mem a = fontTable.getD a 0) ∧
  (∀ a, 80 ≤ a → a < 4096 → Memory.read State.reset.mem a = 0) ∧
  (∀ s : State, SameExcept [.rndDraws] State.reset (s.handle .reset).1 ∧ (s.handle .reset).2 = .done)

/-- LOAD writes the bytes from 0x200 up and nothing else, or reports LoadError and changes nothing. LOAD (60_exceptions.md section 6; decision D23); the premise on memory is the invariant Inv. -/
def Obligations.LoadWritesTheRomOrRefusesIt : Prop :=
  ∀ (bytes : List Byte) (s : State), Memory.wf s.mem = true →
    (bytes.length ≤ 3584 → (s.handle (.load bytes)).2 = .done ∧
      (∀ k, k < bytes.length → Memory.read (s.handle (.load bytes)).1.mem (0x200 + k) = bytes.getD k 0) ∧
      (∀ a, (a < 0x200 ∨ 0x200 + bytes.length ≤ a) → Memory.read (s.handle (.load bytes)).1.mem a = Memory.read s.mem a) ∧
      SameExcept [.mem] s (s.handle (.load bytes)).1) ∧
    (3584 < bytes.length → (s.handle (.load bytes)) = (s, .fault (.loadError bytes.length)))

/-- Every completed instruction changes only the pieces of state the spec's table of writers gives it. The frame of every instruction, from the column "written by" of the state table (10_state.md section 1). -/
def Obligations.InstructionsWriteOnlyTheirState : Prop :=
  ∀ (i : Instr) (s t : State), exec i s = .next t → SameExcept (partsWritten i) s t

/-- A completed instruction changes a register only if it is its destination, VF of a flag-writing one, or in the range of LD Vx,[I]. Who writes a register (10_state.md section 10). -/
def Obligations.RegistersChangeOnlyAsDestinations : Prop :=
  ∀ (i : Instr) (s t : State) (r : Nibble), exec i s = .next t → registerWritten r i = false → t.readV r = s.readV r

/-- Every completed instruction leaves pc + 2, except jumps, calls, returns, skips (+2 or +4) and a wait without a key. The summary table of 40_control_flow.md, which the spec derives. -/
def Obligations.ProgramCounterMovesByTheRule : Prop :=
  ∀ (i : Instr) (s t : State), exec i s = .next t →
    match i with
    | .jp nnn | .call nnn => t.pc = nnn.setWidth 16
    | .jpV0 nnn => t.pc = nnn.setWidth 16 + (s.readV 0).setWidth 16
    | .ret => ∃ k : Fin 16, k.val + 1 = s.sp.toNat ∧ t.pc = s.stack[k.val] + 2
    | .seByte _ _ | .sneByte _ _ | .seReg _ _ | .sneReg _ _ | .skp _ | .sknp _ => t.pc = s.pc + 2 ∨ t.pc = s.pc + 4
    | .ldVxK _ => t.pc = s.pc + 2 ∨ (t = s ∧ ∀ k, s.readKey k = false)
    | .cls | .ldByte _ _ | .addByte _ _ | .ldReg _ _ | .orReg _ _ | .andReg _ _ | .xorReg _ _ | .addReg _ _ => t.pc = s.pc + 2
    | .subReg _ _ | .shrReg _ _ | .subnReg _ _ | .shlReg _ _ | .ldI _ | .rnd _ _ | .drw _ _ _ | .ldVxDt _ => t.pc = s.pc + 2
    | .ldDtVx _ | .ldStVx _ | .addI _ | .ldF _ | .ldB _ | .ldMemVx _ | .ldVxMem _ => t.pc = s.pc + 2

/-- 26 instructions never fault; the other eight fault only with the sub-cause the spec lists; none is refused. Which instruction can raise what (60_exceptions.md section 1, which the spec derives from its policy D9). -/
def Obligations.OnlyEightInstructionsFaultAndOnlyTheirWay : Prop :=
  (∀ (i : Instr) (s : State) (r : Refusal), exec i s ≠ .refused r) ∧
  (∀ (i : Instr) (s : State) (f : Fault), s.sp.toNat ≤ 16 → exec i s = .fault f →
    match i with
    | .ret => f = .outOfRange .stackUnderflow 0 ∧ s.sp = 0
    | .call _ => f = .outOfRange .stackOverflow 16 ∧ s.sp = 16
    | .skp x | .sknp x => f = .outOfRange .key ((s.readV x).setWidth 16) ∧ 15 < (s.readV x).toNat
    | .drw _ _ n => 1 ≤ n.toNat ∧ ∃ a : Word, f = .outOfRange .mem a ∧ Config.memSize ≤ a.toNat
    | .ldB _ | .ldMemVx _ | .ldVxMem _ => ∃ a : Word, f = .outOfRange .mem a ∧ Config.memSize ≤ a.toNat
    | .cls | .jp _ | .jpV0 _ | .seByte _ _ | .sneByte _ _ | .seReg _ _ | .sneReg _ _ | .ldByte _ _ | .addByte _ _ => False
    | .ldReg _ _ | .orReg _ _ | .andReg _ _ | .xorReg _ _ | .addReg _ _ | .subReg _ _ | .shrReg _ _ | .subnReg _ _ => False
    | .shlReg _ _ | .ldI _ | .rnd _ _ | .ldVxDt _ | .ldVxK _ | .ldDtVx _ | .ldStVx _ | .addI _ | .ldF _ => False)

/-- A faulting STEP changes nothing and recurs: TICK, KEYSET, FBREAD and further STEPs do not end it. Faults are precise and recur (60_exceptions.md section 2; decisions D10, D20; assumption 6). -/
def Obligations.FaultingStepRepeatsUntilTheHostInterferes : Prop :=
  ∀ (s : State) (f : Fault), step s = .fault f →
    s.handle .step = (s, .fault f) ∧
    ∀ es : List Event, (∀ e ∈ es, e ≠ .reset ∧ ∀ bytes, e ≠ .load bytes) → step (State.runEvents s es).1 = .fault f

/-- At a jump to its own address every STEP leaves the whole state unchanged, and only RESET or LOAD can end that. The usual end of a program (00_scope.md section 5, 70_reset_and_hazards.md section 4), the spec's own note (assumption 17). -/
def Obligations.SelfJumpIsTheEndOfARun : Prop :=
  ∀ (s : State) (nnn : Addr), s.pc.toNat + 1 < Config.memSize → decode (fetchWord s) = .ok (.jp nnn) →
    nnn.setWidth 16 = s.pc → AtRest s ∧ SameExcept [.dt, .st] s (s.handle .tick).1 ∧
    ∀ es : List Event, (∀ e ∈ es, e ≠ .reset ∧ ∀ bytes, e ≠ .load bytes) →
      AtRest (State.runEvents s es).1 ∧ (State.runEvents s es).1.pc = s.pc ∧
      fetchWord (State.runEvents s es).1 = fetchWord s ∧
      SameExcept [.dt, .st, .keys, .chg] s (State.runEvents s es).1

/-- The reset state meets the invariant of the machine. The invariant at reset. -/
def Obligations.ResetMeetsTheInvariant : Prop :=
  Inv State.reset

/-- Every STEP keeps memory canonical, sp in 0..16, pc at most 0x10FE and every stack entry at most 0x0FFE. The invariant, kept by every STEP from every state that meets it (10_state.md sections 4 and 5; decisions D9, D11). -/
def Obligations.StepKeepsTheInvariant : Prop :=
  ∀ s t : State, Inv s → step s = .next t → Inv t

/-- Every state that any list of host events reaches from reset meets the invariant. Any interleaving of the six events (00_scope.md section 5; decision D25). -/
def Obligations.EveryReachableStateMeetsTheInvariant : Prop :=
  (∀ (s : State) (e : Event), Inv s → Inv (s.handle e).1) ∧ ∀ s : State, Reachable s → Inv s

/-- The suggested end of a run lasts until RESET or LOAD; a wait for a key is at rest but is no end, and a key press ends it. The end of a run as the spec suggests it, and the wait it tells apart from it (70_reset_and_hazards.md section 4; decision D20; assumption 17). -/
def Obligations.EndOfARunLastsAndAWaitIsNone : Prop :=
  (∀ (s : State) (es : List Event), RunEnded s → (∀ e ∈ es, e ≠ .reset ∧ ∀ bytes, e ≠ .load bytes) →
    RunEnded (State.runEvents s es).1) ∧
  (∀ (x k : Nibble) (s : State), s.pc.toNat + 1 < Config.memSize → decode (fetchWord s) = .ok (.ldVxK x) →
    (∀ j, s.readKey j = false) →
    AtRest s ∧ ¬ RunEnded s ∧ ¬ AtRest (s.handle (.keyset k true)).1)
end

