-- ==== Sys2Proof/Laws/Decode.lean ====
section
/-! SUPPORT. The fields of the three formats (R71, R73), of a masked word, and the bytes of a word. -/

namespace Sys2Proof

/-! ### Fields of a word put together by its format -/

@[simp] theorem fieldOp_formatNNN (op : Nibble) (nnn : Addr) : fieldOp (formatNNN op nnn) = op := by
  show BitVec.extractLsb' 12 4 (op ++ nnn : BitVec (4 + 12)) = op
  apply BitVec.eq_of_getLsbD_eq; intro j hj
  simp only [BitVec.getLsbD_extractLsb', BitVec.getLsbD_append, hj, decide_true, Bool.true_and]
  (repeat' split) <;> first | omega | (congr 1; omega)

@[simp] theorem fieldNNN_formatNNN (op : Nibble) (nnn : Addr) : fieldNNN (formatNNN op nnn) = nnn := by
  show BitVec.extractLsb' 0 12 (op ++ nnn : BitVec (4 + 12)) = nnn
  apply BitVec.eq_of_getLsbD_eq; intro j hj
  simp only [BitVec.getLsbD_extractLsb', BitVec.getLsbD_append, hj, decide_true, Bool.true_and]
  (repeat' split) <;> first | omega | (congr 1; omega)

@[simp] theorem fieldOp_formatXNN (op x : Nibble) (nn : Byte) : fieldOp (formatXNN op x nn) = op := by
  show BitVec.extractLsb' 12 4 (op ++ x ++ nn : BitVec (4 + 4 + 8)) = op
  apply BitVec.eq_of_getLsbD_eq; intro j hj
  simp only [BitVec.getLsbD_extractLsb', BitVec.getLsbD_append, hj, decide_true, Bool.true_and]
  (repeat' split) <;> first | omega | (congr 1; omega)

@[simp] theorem fieldX_formatXNN (op x : Nibble) (nn : Byte) : fieldX (formatXNN op x nn) = x := by
  show BitVec.extractLsb' 8 4 (op ++ x ++ nn : BitVec (4 + 4 + 8)) = x
  apply BitVec.eq_of_getLsbD_eq; intro j hj
  simp only [BitVec.getLsbD_extractLsb', BitVec.getLsbD_append, hj, decide_true, Bool.true_and]
  (repeat' split) <;> first | omega | (congr 1; omega)

@[simp] theorem fieldNN_formatXNN (op x : Nibble) (nn : Byte) : fieldNN (formatXNN op x nn) = nn := by
  show BitVec.extractLsb' 0 8 (op ++ x ++ nn : BitVec (4 + 4 + 8)) = nn
  apply BitVec.eq_of_getLsbD_eq; intro j hj
  simp only [BitVec.getLsbD_extractLsb', BitVec.getLsbD_append, hj, decide_true, Bool.true_and]
  (repeat' split) <;> first | omega | (congr 1; omega)

@[simp] theorem fieldOp_formatXYN (op x y n : Nibble) : fieldOp (formatXYN op x y n) = op := by
  show BitVec.extractLsb' 12 4 (op ++ x ++ y ++ n : BitVec (4 + 4 + 4 + 4)) = op
  apply BitVec.eq_of_getLsbD_eq; intro j hj
  simp only [BitVec.getLsbD_extractLsb', BitVec.getLsbD_append, hj, decide_true, Bool.true_and]
  (repeat' split) <;> first | omega | (congr 1; omega)

@[simp] theorem fieldX_formatXYN (op x y n : Nibble) : fieldX (formatXYN op x y n) = x := by
  show BitVec.extractLsb' 8 4 (op ++ x ++ y ++ n : BitVec (4 + 4 + 4 + 4)) = x
  apply BitVec.eq_of_getLsbD_eq; intro j hj
  simp only [BitVec.getLsbD_extractLsb', BitVec.getLsbD_append, hj, decide_true, Bool.true_and]
  (repeat' split) <;> first | omega | (congr 1; omega)

@[simp] theorem fieldY_formatXYN (op x y n : Nibble) : fieldY (formatXYN op x y n) = y := by
  show BitVec.extractLsb' 4 4 (op ++ x ++ y ++ n : BitVec (4 + 4 + 4 + 4)) = y
  apply BitVec.eq_of_getLsbD_eq; intro j hj
  simp only [BitVec.getLsbD_extractLsb', BitVec.getLsbD_append, hj, decide_true, Bool.true_and]
  (repeat' split) <;> first | omega | (congr 1; omega)

@[simp] theorem fieldN_formatXYN (op x y n : Nibble) : fieldN (formatXYN op x y n) = n := by
  show BitVec.extractLsb' 0 4 (op ++ x ++ y ++ n : BitVec (4 + 4 + 4 + 4)) = n
  apply BitVec.eq_of_getLsbD_eq; intro j hj
  simp only [BitVec.getLsbD_extractLsb', BitVec.getLsbD_append, hj, decide_true, Bool.true_and]
  (repeat' split) <;> first | omega | (congr 1; omega)

/-! ### Bytes and words (R52) -/

/-- A word laid out as two bytes and composed again is that word. -/
@[simp] theorem wordOfBytes_bytes (w : Word) : wordOfBytes (highByte w) (lowByte w) = w := by
  simp only [wordOfBytes, highByte, lowByte]; apply BitVec.eq_of_getLsbD_eq; intro j hj
  simp only [BitVec.getLsbD_append, BitVec.getLsbD_extractLsb']
  split
  · rename_i h; simp [h]
  · rw [show 8 + (j - 8) = j by omega]; simp [show j - 8 < 8 by omega]

@[simp] theorem highByte_wordOfBytes (hi lo : Byte) : highByte (wordOfBytes hi lo) = hi := by
  show BitVec.extractLsb' 8 8 (hi ++ lo : BitVec (8 + 8)) = hi
  apply BitVec.eq_of_getLsbD_eq; intro j hj
  simp only [BitVec.getLsbD_extractLsb', BitVec.getLsbD_append, hj, decide_true, Bool.true_and]
  (repeat' split) <;> first | omega | (congr 1; omega)

@[simp] theorem lowByte_wordOfBytes (hi lo : Byte) : lowByte (wordOfBytes hi lo) = lo := by
  show BitVec.extractLsb' 0 8 (hi ++ lo : BitVec (8 + 8)) = lo
  apply BitVec.eq_of_getLsbD_eq; intro j hj
  simp only [BitVec.getLsbD_extractLsb', BitVec.getLsbD_append, hj, decide_true, Bool.true_and]
  (repeat' split) <;> first | omega | (congr 1; omega)

/-! ### Fields of a masked word -/

theorem fieldOp_and (w m : Word) : fieldOp (w &&& m) = fieldOp w &&& fieldOp m := BitVec.extractLsb'_and

theorem fieldN_and (w m : Word) : fieldN (w &&& m) = fieldN w &&& fieldN m := BitVec.extractLsb'_and

theorem fieldNN_and (w m : Word) : fieldNN (w &&& m) = fieldNN w &&& fieldNN m := BitVec.extractLsb'_and

/-- A word that agrees with a pattern under a mask with all of the top nibble has the pattern's family. -/
theorem fieldOp_of_mask {w m p : Word} (h : w &&& m = p) (hm : fieldOp m = 0xF#4) : fieldOp w = fieldOp p := by
  have := congrArg fieldOp h
  rwa [fieldOp_and, hm, show (0xF#4) = BitVec.allOnes 4 from rfl, BitVec.and_allOnes] at this

/-- The same for a mask with all of the low nibble. -/
theorem fieldN_of_mask {w m p : Word} (h : w &&& m = p) (hm : fieldN m = 0xF#4) : fieldN w = fieldN p := by
  have := congrArg fieldN h
  rwa [fieldN_and, hm, show (0xF#4) = BitVec.allOnes 4 from rfl, BitVec.and_allOnes] at this

/-- The same for a mask with all of the low byte. -/
theorem fieldNN_of_mask {w m p : Word} (h : w &&& m = p) (hm : fieldNN m = 0xFF#8) : fieldNN w = fieldNN p := by
  have := congrArg fieldNN h
  rwa [fieldNN_and, hm, show (0xFF#8) = BitVec.allOnes 8 from rfl, BitVec.and_allOnes] at this

/-! ### A word is its fields put together -/

theorem formatNNN_fields (w : Word) : formatNNN (fieldOp w) (fieldNNN w) = w := by
  apply BitVec.eq_of_getLsbD_eq; intro j hj
  show (fieldOp w ++ fieldNNN w : BitVec (4+12)).getLsbD j = _
  simp only [BitVec.getLsbD_append, fieldOp, fieldNNN, BitVec.getLsbD_extractLsb']
  split
  · simp [*]
  · rw [show 12 + (j - 12) = j by omega]; simp [show j - 12 < 4 by omega]

theorem formatXNN_fields (w : Word) : formatXNN (fieldOp w) (fieldX w) (fieldNN w) = w := by
  apply BitVec.eq_of_getLsbD_eq; intro j hj
  show (fieldOp w ++ fieldX w ++ fieldNN w : BitVec (4+4+8)).getLsbD j = _
  simp only [BitVec.getLsbD_append, fieldOp, fieldX, fieldNN, BitVec.getLsbD_extractLsb']
  split
  · simp [*]
  · split
    · rw [show 8 + (j - 8) = j by omega]; simp [show j - 8 < 4 by omega]
    · rw [show 12 + (j - 8 - 4) = j by omega]; simp [show j - 8 - 4 < 4 by omega]

theorem formatXYN_fields (w : Word) : formatXYN (fieldOp w) (fieldX w) (fieldY w) (fieldN w) = w := by
  apply BitVec.eq_of_getLsbD_eq; intro j hj
  show (fieldOp w ++ fieldX w ++ fieldY w ++ fieldN w : BitVec (4+4+4+4)).getLsbD j = _
  simp only [BitVec.getLsbD_append, fieldOp, fieldX, fieldY, fieldN, BitVec.getLsbD_extractLsb']
  split
  · simp [*]
  · split
    · rw [show 4 + (j - 4) = j by omega]; simp [show j - 4 < 4 by omega]
    · split
      · rw [show 8 + (j - 4 - 4) = j by omega]; simp [show j - 4 - 4 < 4 by omega]
      · rw [show 12 + (j - 4 - 4 - 4) = j by omega]; simp [show j - 4 - 4 - 4 < 4 by omega]

/-! ### The families that are broken further (R75) -/

theorem decode_family0 {w : Word} (h : fieldOp w = 0x0#4) : decode w = decodeFamily0 w := by simp only [decode, h]

theorem decode_family8 {w : Word} (h : fieldOp w = 0x8#4) : decode w = decodeFamily8 w := by simp only [decode, h]

theorem decode_familyE {w : Word} (h : fieldOp w = 0xE#4) : decode w = decodeFamilyE w := by simp only [decode, h]

theorem decode_familyF {w : Word} (h : fieldOp w = 0xF#4) : decode w = decodeFamilyF w := by
  simp only [decode, h]; rfl

/-- Decoding the two bytes of a word is decoding the word, with nothing left over. -/
theorem decodeBytes_pair (hi lo : Byte) (rest : List Byte) :
    decodeBytes (hi :: lo :: rest) = match decode (wordOfBytes hi lo) with
      | .ok i => .ok (i, rest)
      | .error e => .error e := rfl

/-- The only way a decoder of whole words fails: the word is undefined. -/
theorem decode_error {w : Word} {e : DecodeError} (h : decode w = .error e) : e = .undefinedWord w := by
  unfold decode at h
  split at h <;> try cases h
  · unfold decodeFamily0 at h; split at h <;> [cases h; (split at h <;> cases h; rfl)]
  · unfold decodeFamily8 at h; split at h <;> cases h; rfl
  · unfold decodeFamilyE at h; split at h <;> cases h; rfl
  · unfold decodeFamilyF at h; split at h <;> cases h; rfl

end Sys2Proof
end

