-- ==== Sys2Proof/Laws/Memory.lean ====
section
/-! SUPPORT. Memory: a read after a write, and that every memory operation keeps the canonical form. -/

namespace Sys2Proof.Machine

theorem Memory.read_putCell (a : Nat) (b : Byte) (rest : Memory) (c : Nat)
    (h : Memory.read rest a = Memory.background a) :
    Memory.read (Memory.putCell a b rest) c = if c = a then b else Memory.read rest c := by
  unfold Memory.putCell
  split
  · rename_i hb
    split
    · rename_i hc; rw [hc, h, hb]
    · rfl
  · simp only [Memory.read, eq_comm]

theorem Memory.wfFrom_mono {low low' : Nat} {m : Memory} (hle : low' ≤ low) (h : Memory.wfFrom low m = true) :
    Memory.wfFrom low' m = true := by
  cases m with
  | nil => rfl
  | cons c rest =>
    obtain ⟨k, b⟩ := c
    simp only [Memory.wfFrom, Bool.and_eq_true, decide_eq_true_eq] at h ⊢
    exact ⟨⟨⟨by omega, h.1.1.2⟩, h.1.2⟩, h.2⟩

/-- Below the lowest listed address memory reads as the background. -/
theorem Memory.read_below {low : Nat} {m : Memory} (h : Memory.wfFrom low m = true) {a : Nat} (ha : a < low) :
    Memory.read m a = Memory.background a := by
  induction m generalizing low with
  | nil => rfl
  | cons c rest ih =>
    obtain ⟨k, b⟩ := c
    simp only [Memory.wfFrom, Bool.and_eq_true, decide_eq_true_eq] at h
    rw [Memory.read, if_neg (by omega)]
    exact ih h.2 (by omega)

/-- A read after a write: the byte written at its address, every other address as before, in canonical memory. -/
theorem Memory.read_write_from {low : Nat} {m : Memory} (h : Memory.wfFrom low m = true) (a : Nat) (b : Byte) (c : Nat) :
    Memory.read (Memory.write m a b) c = if c = a then b else Memory.read m c := by
  induction m generalizing low with
  | nil => exact Memory.read_putCell a b [] c rfl
  | cons cell rest ih =>
    obtain ⟨k, v⟩ := cell
    have hw := h
    simp only [Memory.wfFrom, Bool.and_eq_true, decide_eq_true_eq] at h
    unfold Memory.write
    split
    · rename_i hka
      simp only [Memory.read]
      split
      · rename_i hkc; rw [if_neg (by omega)]
      · exact ih h.2
    · split
      · rename_i hka
        rw [Memory.read_putCell a b rest c (Memory.read_below h.2 (by omega))]
        split
        · rfl
        · rename_i hc; rw [Memory.read, if_neg (by omega)]
      · rename_i h1 h2
        refine Memory.read_putCell a b _ c ?_
        rw [Memory.read, if_neg h2]
        exact Memory.read_below h.2 (by omega)

theorem Memory.read_write {m : Memory} (h : Memory.wf m = true) (a : Nat) (b : Byte) (c : Nat) :
    Memory.read (Memory.write m a b) c = if c = a then b else Memory.read m c := Memory.read_write_from h a b c

theorem Memory.wfFrom_putCell {low a : Nat} {b : Byte} {rest : Memory} (ha : low ≤ a) (hs : a < Config.memSize)
    (h : Memory.wfFrom (a + 1) rest = true) : Memory.wfFrom low (Memory.putCell a b rest) = true := by
  unfold Memory.putCell
  split
  · exact Memory.wfFrom_mono (by omega) h
  · rename_i hb
    simp only [Memory.wfFrom, Bool.and_eq_true, decide_eq_true_eq, bne_iff_ne]
    exact ⟨⟨⟨ha, hs⟩, hb⟩, h⟩

theorem Memory.wfFrom_write {low : Nat} {m : Memory} (h : Memory.wfFrom low m = true) {a : Nat} (ha : low ≤ a)
    (hs : a < Config.memSize) (b : Byte) : Memory.wfFrom low (Memory.write m a b) = true := by
  induction m generalizing low with
  | nil => exact Memory.wfFrom_putCell ha hs rfl
  | cons cell rest ih =>
    obtain ⟨k, v⟩ := cell
    have h' := h
    simp only [Memory.wfFrom, Bool.and_eq_true, decide_eq_true_eq] at h
    unfold Memory.write
    split
    · simp only [Memory.wfFrom, Bool.and_eq_true, decide_eq_true_eq]
      exact ⟨h.1, ih h.2 (by omega)⟩
    · split
      · rename_i hka; exact Memory.wfFrom_putCell ha hs (hka ▸ h.2)
      · refine Memory.wfFrom_putCell ha hs ?_
        simp only [Memory.wfFrom, Bool.and_eq_true, decide_eq_true_eq]
        exact ⟨⟨⟨by omega, h.1.1.2⟩, h.1.2⟩, h.2⟩

/-- A write at an address that exists keeps the canonical form. -/
theorem Memory.wf_write {m : Memory} (h : Memory.wf m = true) {a : Nat} (hs : a < Config.memSize) (b : Byte) :
    Memory.wf (Memory.write m a b) = true := Memory.wfFrom_write h (Nat.zero_le a) hs b

/-- The address of the byte `k` places above a base, where all `n` of them exist. -/
theorem toNat_add_ofNat {base : Word} {n k : Nat} (h : base.toNat + n ≤ Config.memSize) (hk : k < n) :
    (base + BitVec.ofNat 16 k).toNat = base.toNat + k := by
  simp only [Config.memSize] at h
  rw [BitVec.toNat_add, BitVec.toNat_ofNat]
  omega

/-- Ascending stores keep the canonical form. -/
theorem Memory.wf_loadAt {m : Memory} (h : Memory.wf m = true) {a : Nat} {bs : List Byte}
    (hs : a + bs.length ≤ Config.memSize) : Memory.wf (Memory.loadAt m a bs) = true := by
  induction bs generalizing m a with
  | nil => exact h
  | cons b bs ih =>
    simp only [List.length_cons] at hs
    exact ih (Memory.wf_write h (by omega) b) (by omega)

/-- Stored bytes read back at their addresses, every other address as before. -/
theorem Memory.read_loadAt {m : Memory} (h : Memory.wf m = true) {a : Nat} {bs : List Byte}
    (hs : a + bs.length ≤ Config.memSize) (c : Nat) :
    Memory.read (Memory.loadAt m a bs) c
      = if a ≤ c ∧ c < a + bs.length then bs.getD (c - a) 0 else Memory.read m c := by
  induction bs generalizing m a with
  | nil => rw [if_neg (by simp only [List.length_nil]; omega)]; rfl
  | cons b bs ih =>
    simp only [List.length_cons] at hs ⊢
    rw [Memory.loadAt, ih (Memory.wf_write h (by omega) b) (by omega), Memory.read_write h]
    by_cases hc : c = a
    · subst hc; simp
    · rw [if_neg hc]
      by_cases hin : a + 1 ≤ c ∧ c < a + 1 + bs.length
      · rw [if_pos hin, if_pos (by omega)]
        obtain ⟨d, hd⟩ : ∃ d, c - a = d + 1 := ⟨c - a - 1, by omega⟩
        rw [hd, List.getD_cons_succ]
        congr 1
        omega
      · rw [if_neg hin, if_neg (by omega)]

/-- Within memory the instructions' 16-bit addresses and the loader's count are the same stores. -/
theorem Memory.store_eq_loadAt {base : Word} {bs : List Byte} (hs : base.toNat + bs.length ≤ Config.memSize)
    (m : Memory) : Memory.store m base bs = Memory.loadAt m base.toNat bs := by
  induction bs generalizing m base with
  | nil => rfl
  | cons b bs ih =>
    simp only [List.length_cons] at hs
    rw [Memory.store, Memory.loadAt]
    cases bs with
    | nil => rfl
    | cons c cs =>
      have hb : (base + 1).toNat = base.toNat + 1 := by
        have := toNat_add_ofNat (k := 1) hs (by simp)
        simpa using this
      rw [ih (by rw [hb]; simp only [List.length_cons] at hs ⊢; omega), hb]

/-- An instruction's stores keep the canonical form. -/
theorem Memory.wf_store {m : Memory} (h : Memory.wf m = true) {base : Word} {bs : List Byte}
    (hs : base.toNat + bs.length ≤ Config.memSize) : Memory.wf (Memory.store m base bs) = true := by
  rw [Memory.store_eq_loadAt hs]; exact Memory.wf_loadAt h hs

/-- An instruction's stored bytes read back at their addresses, every other address as before. -/
theorem Memory.read_store {m : Memory} (h : Memory.wf m = true) {base : Word} {bs : List Byte}
    (hs : base.toNat + bs.length ≤ Config.memSize) (c : Nat) :
    Memory.read (Memory.store m base bs) c
      = if base.toNat ≤ c ∧ c < base.toNat + bs.length then bs.getD (c - base.toNat) 0 else Memory.read m c := by
  rw [Memory.store_eq_loadAt hs]; exact Memory.read_loadAt h hs c

end Sys2Proof.Machine
end

