-- ==== Sys2Proof/Laws/State.lean ====
section
/-! SUPPORT. One lemma per field per update of the state, and what an update leaves in a register, a key and the memory
that is read: no later proof unfolds an update. -/

namespace Sys2Proof.Machine.State

variable (s : State)

/-! ### setV -/

@[simp] theorem setV_v (x : Nibble) (b : Byte) : (s.setV x b).v = s.v.set x.toNat b x.isLt := rfl
@[simp] theorem setV_i (x : Nibble) (b : Byte) : (s.setV x b).i = s.i := rfl
@[simp] theorem setV_pc (x : Nibble) (b : Byte) : (s.setV x b).pc = s.pc := rfl
@[simp] theorem setV_sp (x : Nibble) (b : Byte) : (s.setV x b).sp = s.sp := rfl
@[simp] theorem setV_stack (x : Nibble) (b : Byte) : (s.setV x b).stack = s.stack := rfl
@[simp] theorem setV_dt (x : Nibble) (b : Byte) : (s.setV x b).dt = s.dt := rfl
@[simp] theorem setV_st (x : Nibble) (b : Byte) : (s.setV x b).st = s.st := rfl
@[simp] theorem setV_keys (x : Nibble) (b : Byte) : (s.setV x b).keys = s.keys := rfl
@[simp] theorem setV_fb (x : Nibble) (b : Byte) : (s.setV x b).fb = s.fb := rfl
@[simp] theorem setV_chg (x : Nibble) (b : Byte) : (s.setV x b).chg = s.chg := rfl
@[simp] theorem setV_mem (x : Nibble) (b : Byte) : (s.setV x b).mem = s.mem := rfl
@[simp] theorem setV_rndDraws (x : Nibble) (b : Byte) : (s.setV x b).rndDraws = s.rndDraws := rfl

/-! ### setI -/

@[simp] theorem setI_v (a : Word) : (s.setI a).v = s.v := rfl
@[simp] theorem setI_i (a : Word) : (s.setI a).i = a := rfl
@[simp] theorem setI_pc (a : Word) : (s.setI a).pc = s.pc := rfl
@[simp] theorem setI_sp (a : Word) : (s.setI a).sp = s.sp := rfl
@[simp] theorem setI_stack (a : Word) : (s.setI a).stack = s.stack := rfl
@[simp] theorem setI_dt (a : Word) : (s.setI a).dt = s.dt := rfl
@[simp] theorem setI_st (a : Word) : (s.setI a).st = s.st := rfl
@[simp] theorem setI_keys (a : Word) : (s.setI a).keys = s.keys := rfl
@[simp] theorem setI_fb (a : Word) : (s.setI a).fb = s.fb := rfl
@[simp] theorem setI_chg (a : Word) : (s.setI a).chg = s.chg := rfl
@[simp] theorem setI_mem (a : Word) : (s.setI a).mem = s.mem := rfl
@[simp] theorem setI_rndDraws (a : Word) : (s.setI a).rndDraws = s.rndDraws := rfl

/-! ### setDt -/

@[simp] theorem setDt_v (b : Byte) : (s.setDt b).v = s.v := rfl
@[simp] theorem setDt_i (b : Byte) : (s.setDt b).i = s.i := rfl
@[simp] theorem setDt_pc (b : Byte) : (s.setDt b).pc = s.pc := rfl
@[simp] theorem setDt_sp (b : Byte) : (s.setDt b).sp = s.sp := rfl
@[simp] theorem setDt_stack (b : Byte) : (s.setDt b).stack = s.stack := rfl
@[simp] theorem setDt_dt (b : Byte) : (s.setDt b).dt = b := rfl
@[simp] theorem setDt_st (b : Byte) : (s.setDt b).st = s.st := rfl
@[simp] theorem setDt_keys (b : Byte) : (s.setDt b).keys = s.keys := rfl
@[simp] theorem setDt_fb (b : Byte) : (s.setDt b).fb = s.fb := rfl
@[simp] theorem setDt_chg (b : Byte) : (s.setDt b).chg = s.chg := rfl
@[simp] theorem setDt_mem (b : Byte) : (s.setDt b).mem = s.mem := rfl
@[simp] theorem setDt_rndDraws (b : Byte) : (s.setDt b).rndDraws = s.rndDraws := rfl

/-! ### setSt -/

@[simp] theorem setSt_v (b : Byte) : (s.setSt b).v = s.v := rfl
@[simp] theorem setSt_i (b : Byte) : (s.setSt b).i = s.i := rfl
@[simp] theorem setSt_pc (b : Byte) : (s.setSt b).pc = s.pc := rfl
@[simp] theorem setSt_sp (b : Byte) : (s.setSt b).sp = s.sp := rfl
@[simp] theorem setSt_stack (b : Byte) : (s.setSt b).stack = s.stack := rfl
@[simp] theorem setSt_dt (b : Byte) : (s.setSt b).dt = s.dt := rfl
@[simp] theorem setSt_st (b : Byte) : (s.setSt b).st = b := rfl
@[simp] theorem setSt_keys (b : Byte) : (s.setSt b).keys = s.keys := rfl
@[simp] theorem setSt_fb (b : Byte) : (s.setSt b).fb = s.fb := rfl
@[simp] theorem setSt_chg (b : Byte) : (s.setSt b).chg = s.chg := rfl
@[simp] theorem setSt_mem (b : Byte) : (s.setSt b).mem = s.mem := rfl
@[simp] theorem setSt_rndDraws (b : Byte) : (s.setSt b).rndDraws = s.rndDraws := rfl

/-! ### setMem -/

@[simp] theorem setMem_v (m : Memory) : (s.setMem m).v = s.v := rfl
@[simp] theorem setMem_i (m : Memory) : (s.setMem m).i = s.i := rfl
@[simp] theorem setMem_pc (m : Memory) : (s.setMem m).pc = s.pc := rfl
@[simp] theorem setMem_sp (m : Memory) : (s.setMem m).sp = s.sp := rfl
@[simp] theorem setMem_stack (m : Memory) : (s.setMem m).stack = s.stack := rfl
@[simp] theorem setMem_dt (m : Memory) : (s.setMem m).dt = s.dt := rfl
@[simp] theorem setMem_st (m : Memory) : (s.setMem m).st = s.st := rfl
@[simp] theorem setMem_keys (m : Memory) : (s.setMem m).keys = s.keys := rfl
@[simp] theorem setMem_fb (m : Memory) : (s.setMem m).fb = s.fb := rfl
@[simp] theorem setMem_chg (m : Memory) : (s.setMem m).chg = s.chg := rfl
@[simp] theorem setMem_mem (m : Memory) : (s.setMem m).mem = m := rfl
@[simp] theorem setMem_rndDraws (m : Memory) : (s.setMem m).rndDraws = s.rndDraws := rfl

/-! ### setFb -/

@[simp] theorem setFb_v (fb : Framebuffer) : (s.setFb fb).v = s.v := rfl
@[simp] theorem setFb_i (fb : Framebuffer) : (s.setFb fb).i = s.i := rfl
@[simp] theorem setFb_pc (fb : Framebuffer) : (s.setFb fb).pc = s.pc := rfl
@[simp] theorem setFb_sp (fb : Framebuffer) : (s.setFb fb).sp = s.sp := rfl
@[simp] theorem setFb_stack (fb : Framebuffer) : (s.setFb fb).stack = s.stack := rfl
@[simp] theorem setFb_dt (fb : Framebuffer) : (s.setFb fb).dt = s.dt := rfl
@[simp] theorem setFb_st (fb : Framebuffer) : (s.setFb fb).st = s.st := rfl
@[simp] theorem setFb_keys (fb : Framebuffer) : (s.setFb fb).keys = s.keys := rfl
@[simp] theorem setFb_fb (fb : Framebuffer) : (s.setFb fb).fb = fb := rfl
@[simp] theorem setFb_chg (fb : Framebuffer) : (s.setFb fb).chg = true := rfl
@[simp] theorem setFb_mem (fb : Framebuffer) : (s.setFb fb).mem = s.mem := rfl
@[simp] theorem setFb_rndDraws (fb : Framebuffer) : (s.setFb fb).rndDraws = s.rndDraws := rfl

/-! ### setKey -/

@[simp] theorem setKey_v (k : Nibble) (b : Bool) : (s.setKey k b).v = s.v := rfl
@[simp] theorem setKey_i (k : Nibble) (b : Bool) : (s.setKey k b).i = s.i := rfl
@[simp] theorem setKey_pc (k : Nibble) (b : Bool) : (s.setKey k b).pc = s.pc := rfl
@[simp] theorem setKey_sp (k : Nibble) (b : Bool) : (s.setKey k b).sp = s.sp := rfl
@[simp] theorem setKey_stack (k : Nibble) (b : Bool) : (s.setKey k b).stack = s.stack := rfl
@[simp] theorem setKey_dt (k : Nibble) (b : Bool) : (s.setKey k b).dt = s.dt := rfl
@[simp] theorem setKey_st (k : Nibble) (b : Bool) : (s.setKey k b).st = s.st := rfl
@[simp] theorem setKey_keys (k : Nibble) (b : Bool) : (s.setKey k b).keys = s.keys.set k.toNat b k.isLt := rfl
@[simp] theorem setKey_fb (k : Nibble) (b : Bool) : (s.setKey k b).fb = s.fb := rfl
@[simp] theorem setKey_chg (k : Nibble) (b : Bool) : (s.setKey k b).chg = s.chg := rfl
@[simp] theorem setKey_mem (k : Nibble) (b : Bool) : (s.setKey k b).mem = s.mem := rfl
@[simp] theorem setKey_rndDraws (k : Nibble) (b : Bool) : (s.setKey k b).rndDraws = s.rndDraws := rfl

/-! ### consumeRnd -/

@[simp] theorem consumeRnd_v : (s.consumeRnd).v = s.v := rfl
@[simp] theorem consumeRnd_i : (s.consumeRnd).i = s.i := rfl
@[simp] theorem consumeRnd_pc : (s.consumeRnd).pc = s.pc := rfl
@[simp] theorem consumeRnd_sp : (s.consumeRnd).sp = s.sp := rfl
@[simp] theorem consumeRnd_stack : (s.consumeRnd).stack = s.stack := rfl
@[simp] theorem consumeRnd_dt : (s.consumeRnd).dt = s.dt := rfl
@[simp] theorem consumeRnd_st : (s.consumeRnd).st = s.st := rfl
@[simp] theorem consumeRnd_keys : (s.consumeRnd).keys = s.keys := rfl
@[simp] theorem consumeRnd_fb : (s.consumeRnd).fb = s.fb := rfl
@[simp] theorem consumeRnd_chg : (s.consumeRnd).chg = s.chg := rfl
@[simp] theorem consumeRnd_mem : (s.consumeRnd).mem = s.mem := rfl
@[simp] theorem consumeRnd_rndDraws : (s.consumeRnd).rndDraws = s.rndDraws + 1 := rfl

/-! ### setPc -/

@[simp] theorem setPc_v (a : Word) : (s.setPc a).v = s.v := rfl
@[simp] theorem setPc_i (a : Word) : (s.setPc a).i = s.i := rfl
@[simp] theorem setPc_pc (a : Word) : (s.setPc a).pc = a := rfl
@[simp] theorem setPc_sp (a : Word) : (s.setPc a).sp = s.sp := rfl
@[simp] theorem setPc_stack (a : Word) : (s.setPc a).stack = s.stack := rfl
@[simp] theorem setPc_dt (a : Word) : (s.setPc a).dt = s.dt := rfl
@[simp] theorem setPc_st (a : Word) : (s.setPc a).st = s.st := rfl
@[simp] theorem setPc_keys (a : Word) : (s.setPc a).keys = s.keys := rfl
@[simp] theorem setPc_fb (a : Word) : (s.setPc a).fb = s.fb := rfl
@[simp] theorem setPc_chg (a : Word) : (s.setPc a).chg = s.chg := rfl
@[simp] theorem setPc_mem (a : Word) : (s.setPc a).mem = s.mem := rfl
@[simp] theorem setPc_rndDraws (a : Word) : (s.setPc a).rndDraws = s.rndDraws := rfl

/-! ### advance -/

@[simp] theorem advance_v : (s.advance).v = s.v := rfl
@[simp] theorem advance_i : (s.advance).i = s.i := rfl
@[simp] theorem advance_pc : (s.advance).pc = s.pc + 2 := rfl
@[simp] theorem advance_sp : (s.advance).sp = s.sp := rfl
@[simp] theorem advance_stack : (s.advance).stack = s.stack := rfl
@[simp] theorem advance_dt : (s.advance).dt = s.dt := rfl
@[simp] theorem advance_st : (s.advance).st = s.st := rfl
@[simp] theorem advance_keys : (s.advance).keys = s.keys := rfl
@[simp] theorem advance_fb : (s.advance).fb = s.fb := rfl
@[simp] theorem advance_chg : (s.advance).chg = s.chg := rfl
@[simp] theorem advance_mem : (s.advance).mem = s.mem := rfl
@[simp] theorem advance_rndDraws : (s.advance).rndDraws = s.rndDraws := rfl

/-! ### skipIf -/

@[simp] theorem skipIf_v (c : Bool) : (s.skipIf c).v = s.v := rfl
@[simp] theorem skipIf_i (c : Bool) : (s.skipIf c).i = s.i := rfl
@[simp] theorem skipIf_pc (c : Bool) : (s.skipIf c).pc = if c then s.pc + 4 else s.pc + 2 := rfl
@[simp] theorem skipIf_sp (c : Bool) : (s.skipIf c).sp = s.sp := rfl
@[simp] theorem skipIf_stack (c : Bool) : (s.skipIf c).stack = s.stack := rfl
@[simp] theorem skipIf_dt (c : Bool) : (s.skipIf c).dt = s.dt := rfl
@[simp] theorem skipIf_st (c : Bool) : (s.skipIf c).st = s.st := rfl
@[simp] theorem skipIf_keys (c : Bool) : (s.skipIf c).keys = s.keys := rfl
@[simp] theorem skipIf_fb (c : Bool) : (s.skipIf c).fb = s.fb := rfl
@[simp] theorem skipIf_chg (c : Bool) : (s.skipIf c).chg = s.chg := rfl
@[simp] theorem skipIf_mem (c : Bool) : (s.skipIf c).mem = s.mem := rfl
@[simp] theorem skipIf_rndDraws (c : Bool) : (s.skipIf c).rndDraws = s.rndDraws := rfl

/-! ### clearChg -/

@[simp] theorem clearChg_v : (s.clearChg).v = s.v := rfl
@[simp] theorem clearChg_i : (s.clearChg).i = s.i := rfl
@[simp] theorem clearChg_pc : (s.clearChg).pc = s.pc := rfl
@[simp] theorem clearChg_sp : (s.clearChg).sp = s.sp := rfl
@[simp] theorem clearChg_stack : (s.clearChg).stack = s.stack := rfl
@[simp] theorem clearChg_dt : (s.clearChg).dt = s.dt := rfl
@[simp] theorem clearChg_st : (s.clearChg).st = s.st := rfl
@[simp] theorem clearChg_keys : (s.clearChg).keys = s.keys := rfl
@[simp] theorem clearChg_fb : (s.clearChg).fb = s.fb := rfl
@[simp] theorem clearChg_chg : (s.clearChg).chg = false := rfl
@[simp] theorem clearChg_mem : (s.clearChg).mem = s.mem := rfl
@[simp] theorem clearChg_rndDraws : (s.clearChg).rndDraws = s.rndDraws := rfl

/-! ### tick -/

@[simp] theorem tick_v : (s.tick).v = s.v := rfl
@[simp] theorem tick_i : (s.tick).i = s.i := rfl
@[simp] theorem tick_pc : (s.tick).pc = s.pc := rfl
@[simp] theorem tick_sp : (s.tick).sp = s.sp := rfl
@[simp] theorem tick_stack : (s.tick).stack = s.stack := rfl
@[simp] theorem tick_dt : (s.tick).dt = countDown s.dt := rfl
@[simp] theorem tick_st : (s.tick).st = countDown s.st := rfl
@[simp] theorem tick_keys : (s.tick).keys = s.keys := rfl
@[simp] theorem tick_fb : (s.tick).fb = s.fb := rfl
@[simp] theorem tick_chg : (s.tick).chg = s.chg := rfl
@[simp] theorem tick_mem : (s.tick).mem = s.mem := rfl
@[simp] theorem tick_rndDraws : (s.tick).rndDraws = s.rndDraws := rfl

/-! ### setFlagThenV -/

@[simp] theorem setFlagThenV_i (flag : Byte) (x : Nibble) (r : Byte) : (s.setFlagThenV flag x r).i = s.i := rfl
@[simp] theorem setFlagThenV_pc (flag : Byte) (x : Nibble) (r : Byte) : (s.setFlagThenV flag x r).pc = s.pc := rfl
@[simp] theorem setFlagThenV_sp (flag : Byte) (x : Nibble) (r : Byte) : (s.setFlagThenV flag x r).sp = s.sp := rfl
@[simp] theorem setFlagThenV_stack (flag : Byte) (x : Nibble) (r : Byte) : (s.setFlagThenV flag x r).stack = s.stack := rfl
@[simp] theorem setFlagThenV_dt (flag : Byte) (x : Nibble) (r : Byte) : (s.setFlagThenV flag x r).dt = s.dt := rfl
@[simp] theorem setFlagThenV_st (flag : Byte) (x : Nibble) (r : Byte) : (s.setFlagThenV flag x r).st = s.st := rfl
@[simp] theorem setFlagThenV_keys (flag : Byte) (x : Nibble) (r : Byte) : (s.setFlagThenV flag x r).keys = s.keys := rfl
@[simp] theorem setFlagThenV_fb (flag : Byte) (x : Nibble) (r : Byte) : (s.setFlagThenV flag x r).fb = s.fb := rfl
@[simp] theorem setFlagThenV_chg (flag : Byte) (x : Nibble) (r : Byte) : (s.setFlagThenV flag x r).chg = s.chg := rfl
@[simp] theorem setFlagThenV_mem (flag : Byte) (x : Nibble) (r : Byte) : (s.setFlagThenV flag x r).mem = s.mem := rfl
@[simp] theorem setFlagThenV_rndDraws (flag : Byte) (x : Nibble) (r : Byte) : (s.setFlagThenV flag x r).rndDraws = s.rndDraws := rfl

/-! ### What is read after an update -/

/-- A register after a write: the value written, or as before (R21). -/
theorem readV_setV (x y : Nibble) (b : Byte) : (s.setV x b).readV y = if y = x then b else s.readV y := by
  simp only [readV, setV, Vector.getElem_set]
  by_cases h : y = x
  · simp [h]
  · rw [if_neg, if_neg h]
    exact fun e => h (BitVec.eq_of_toNat_eq e.symm)

@[simp] theorem readV_setV_self (x : Nibble) (b : Byte) : (s.setV x b).readV x = b := by simp [readV_setV]

/-- A register after a flag and a result are written: the result wins in Vx (R121). -/
theorem readV_setFlagThenV (flag : Byte) (x y : Nibble) (r : Byte) :
    (s.setFlagThenV flag x r).readV y = if y = x then r else if y = vf then flag else s.readV y := by
  simp only [setFlagThenV, readV_setV]

/-- The result stands in Vx, whether or not Vx is VF (R121 a). -/
@[simp] theorem readV_setFlagThenV_self (flag : Byte) (x : Nibble) (r : Byte) :
    (s.setFlagThenV flag x r).readV x = r := by simp [readV_setFlagThenV]

/-- The flag stands in VF unless the result replaced it (R121). -/
theorem readV_setFlagThenV_vf (flag : Byte) {x : Nibble} (r : Byte) (h : x ≠ vf) :
    (s.setFlagThenV flag x r).readV vf = flag := by rw [readV_setFlagThenV, if_neg (Ne.symm h), if_pos rfl]

/-- Every other register is as before. -/
theorem readV_setFlagThenV_other (flag : Byte) {x y : Nibble} (r : Byte) (h : y ≠ x) (hv : y ≠ vf) :
    (s.setFlagThenV flag x r).readV y = s.readV y := by rw [readV_setFlagThenV, if_neg h, if_neg hv]

/-- A key flag after KEYSET (R208). -/
theorem readKey_setKey (j k : Nibble) (b : Bool) : (s.setKey k b).readKey j = if j = k then b else s.readKey j := by
  simp only [readKey, setKey, Vector.getElem_set]
  by_cases h : j = k
  · simp [h]
  · rw [if_neg, if_neg h]
    exact fun e => h (BitVec.eq_of_toNat_eq e.symm)

/-- Registers are read off the field `v` alone. -/
theorem readV_congr {s t : State} (h : t.v = s.v) (x : Nibble) : t.readV x = s.readV x := by simp only [readV, h]

@[simp] theorem readV_setI (a : Word) (y : Nibble) : (s.setI a).readV y = s.readV y := rfl
@[simp] theorem readV_setDt (b : Byte) (y : Nibble) : (s.setDt b).readV y = s.readV y := rfl
@[simp] theorem readV_setSt (b : Byte) (y : Nibble) : (s.setSt b).readV y = s.readV y := rfl
@[simp] theorem readV_setMem (m : Memory) (y : Nibble) : (s.setMem m).readV y = s.readV y := rfl
@[simp] theorem readV_setFb (fb : Framebuffer) (y : Nibble) : (s.setFb fb).readV y = s.readV y := rfl
@[simp] theorem readV_setKey (k : Nibble) (b : Bool) (y : Nibble) : (s.setKey k b).readV y = s.readV y := rfl
@[simp] theorem readV_consumeRnd (y : Nibble) : (s.consumeRnd).readV y = s.readV y := rfl
@[simp] theorem readV_setPc (a : Word) (y : Nibble) : (s.setPc a).readV y = s.readV y := rfl
@[simp] theorem readV_advance (y : Nibble) : (s.advance).readV y = s.readV y := rfl
@[simp] theorem readV_skipIf (c : Bool) (y : Nibble) : (s.skipIf c).readV y = s.readV y := rfl
@[simp] theorem readV_clearChg (y : Nibble) : (s.clearChg).readV y = s.readV y := rfl
@[simp] theorem readV_tick (y : Nibble) : (s.tick).readV y = s.readV y := rfl

end Sys2Proof.Machine.State
end

