-- ==== Sys2Proof/Laws/Ops.lean ====
section
/-! SUPPORT. One lemma per shared operation, saying everything it can do. -/

namespace Sys2Proof.Machine

/-! ### Bounds (R53, R56) -/

theorem firstOutside_zero (base : Word) : firstOutside base 0 = none := rfl

theorem firstOutside_of_exists {base : Word} {n : Nat} (h : RangeExists base n) : firstOutside base n = none := by
  unfold RangeExists at h
  simp only [firstOutside, List.find?_eq_none, List.mem_map, List.mem_range, decide_eq_true_eq, Nat.not_le]
  rintro a ⟨k, hk, rfl⟩
  rw [toNat_add_ofNat h hk]
  omega

/-- The lowest offending address: the base itself if it does not exist, else the first one beyond memory (R146). -/
theorem firstOutside_of_not_exists {base : Word} {n : Nat} (hn : 0 < n) (h : ¬ RangeExists base n) :
    firstOutside base n = some (if Config.memSize ≤ base.toNat then base else 0x1000) := by
  unfold RangeExists at h
  simp only [Config.memSize] at h ⊢
  split
  · rename_i hb
    obtain ⟨k, rfl⟩ : ∃ k, n = k + 1 := ⟨n - 1, by omega⟩
    rw [firstOutside, List.range_succ_eq_map, List.map_cons, List.find?_cons_of_pos]
    · simp
    · simpa using hb
  · rename_i hb
    have hn' : n = (4096 - base.toNat) + (1 + (n - (4096 - base.toNat) - 1)) := by omega
    have hin : RangeExists base (4096 - base.toNat) := by unfold RangeExists; simp only [Config.memSize]; omega
    have hfirst := firstOutside_of_exists hin
    have hedge : base + BitVec.ofNat 16 (4096 - base.toNat) = 0x1000#16 := by
      apply BitVec.eq_of_toNat_eq
      rw [BitVec.toNat_add, BitVec.toNat_ofNat]
      simp only [BitVec.toNat_ofNat]
      omega
    unfold firstOutside at hfirst ⊢
    rw [hn', List.range_add, List.map_append, List.find?_append, hfirst, Nat.add_comm 1, List.range_succ_eq_map]
    simp only [List.map_cons, List.map_map, Option.none_or]
    rw [Nat.add_zero, hedge, List.find?_cons_of_pos]
    · rfl
    · decide

theorem guardRange_of_exists {base : Word} {n : Nat} (h : RangeExists base n) (answer : Result) :
    guardRange base n answer = answer := by rw [guardRange, firstOutside_of_exists h]

theorem guardRange_zero (base : Word) (answer : Result) : guardRange base 0 answer = answer := rfl

theorem guardRange_of_not_exists {base : Word} {n : Nat} (hn : 0 < n) (h : ¬ RangeExists base n) (answer : Result) :
    guardRange base n answer = .fault (.outOfRange .mem (if Config.memSize ≤ base.toNat then base else 0x1000)) := by
  rw [guardRange, firstOutside_of_not_exists hn h]; rfl

/-- A guarded answer is a next state only where the addresses exist. -/
theorem guardRange_next {base : Word} {n : Nat} {answer : Result} {t : State} (h : guardRange base n answer = .next t) :
    (n = 0 ∨ RangeExists base n) ∧ answer = .next t := by
  by_cases hn : n = 0
  · subst hn; exact ⟨.inl rfl, h⟩
  · by_cases hr : RangeExists base n
    · rw [guardRange_of_exists hr] at h; exact ⟨.inr hr, h⟩
    · rw [guardRange_of_not_exists (by omega) hr] at h; cases h

/-- A guarded answer that would go on faults only for its addresses. -/
theorem guardRange_fault {base : Word} {n : Nat} {u : State} {f : Fault} (h : guardRange base n (.next u) = .fault f) :
    ∃ a, f = .outOfRange .mem a := by
  by_cases hn : n = 0
  · subst hn; cases h
  · by_cases hr : RangeExists base n
    · rw [guardRange_of_exists hr] at h; cases h
    · rw [guardRange_of_not_exists (by omega) hr] at h; cases h; exact ⟨_, rfl⟩

/-! ### The call stack (R100, R102) -/

theorem pushAndGo_of_lt {s : State} (h : s.sp.toNat < 16) (target : Word) :
    pushAndGo s target = .next { s with stack := s.stack.set s.sp.toNat s.pc h, sp := s.sp + 1, pc := target } := by
  rw [pushAndGo, dif_pos h]

theorem popAndReturn_of_pos {s : State} (h0 : 0 < s.sp.toNat) (h : s.sp.toNat ≤ 16) :
    popAndReturn s = .next { s with sp := s.sp - 1, pc := s.stack[s.sp.toNat - 1]'(show s.sp.toNat - 1 < 16 by omega) + 2 } := by
  have hne : s.sp ≠ 0 := fun e => by rw [e] at h0; exact absurd h0 (by decide)
  rw [popAndReturn, if_neg hne, dif_pos (show s.sp.toNat - 1 < 16 by omega)]

/-! ### The framebuffer (R29) -/

/-- A pixel after a toggle: the toggled pixel inverted, every other as before. -/
theorem Framebuffer.lit_toggle (fb : Framebuffer) (x x' : Fin Config.fbWidth) (y y' : Fin Config.fbHeight) :
    Framebuffer.lit (Framebuffer.toggle fb x y) x' y' = (Framebuffer.lit fb x' y' ^^ (decide (x' = x) && decide (y' = y))) := by
  simp only [Framebuffer.lit, Framebuffer.toggle, Vector.getElem_set]
  by_cases hy : y' = y
  · subst hy
    have h64 : x.val < 64 := x.isLt
    simp only [if_true, BitVec.getLsbD_xor, BitVec.getLsbD_twoPow, decide_true, Bool.and_true, Fin.ext_iff]
    congr 1
    simp only [h64, decide_true, Bool.true_and, eq_comm]
  · rw [if_neg (fun e => hy (Fin.ext e.symm))]
    simp [hy]

theorem Framebuffer.lit_blank (x : Fin Config.fbWidth) (y : Fin Config.fbHeight) :
    Framebuffer.lit Framebuffer.blank x y = false := by
  simp [Framebuffer.lit, Framebuffer.blank]

/-- Two framebuffers with the same pixels are the same data. -/
theorem Framebuffer.ext_lit {a b : Framebuffer} (h : ∀ x y, Framebuffer.lit a x y = Framebuffer.lit b x y) : a = b := by
  apply Vector.ext
  intro j hj
  apply BitVec.eq_of_getLsbD_eq
  intro k hk
  exact h ⟨k, hk⟩ ⟨j, hj⟩

/-! ### Registers loaded and dumped (R146, R147) -/

theorem getElem_loadRegs (m : Memory) (base : Word) (v : Vector Byte 16) (n k : Nat) (hk : k < 16) :
    (loadRegs m base v n)[k] = if k < n then Memory.read m (base + BitVec.ofNat 16 k).toNat else v[k] := by
  induction n with
  | zero => rfl
  | succ n ih =>
    rw [loadRegs, Vector.getElem_setIfInBounds]
    split
    · rename_i h; subst h; simp
    · rw [ih]
      by_cases h : k < n
      · rw [if_pos h, if_pos (by omega)]
      · rw [if_neg h, if_neg (by omega)]

theorem length_dumpBytes (s : State) (x : Nibble) : (dumpBytes s x).length = x.toNat + 1 := by
  have := x.isLt
  simp only [dumpBytes, dumpCount, List.length_take, Vector.length_toList]
  omega

theorem getD_dumpBytes (s : State) (x k : Nibble) (hk : k.toNat ≤ x.toNat) :
    (dumpBytes s x).getD k.toNat 0 = s.readV k := by
  have := k.isLt
  simp only [dumpBytes, dumpCount, State.readV, List.getD_eq_getElem?_getD]
  rw [List.getElem?_take_of_lt (by omega), List.getElem?_eq_getElem (by simpa using k.isLt)]
  simp

theorem length_bcdDigits (b : Byte) : (bcdDigits b).length = 3 := by simp [bcdDigits]

/-! ### The key a wait reports (R178) -/

theorem lowestKey_none {s : State} : lowestKey s = none ↔ ∀ k, s.readKey k = false := by
  simp only [lowestKey, List.find?_eq_none, List.mem_map, List.mem_range, Config.numKeys]
  constructor
  · intro h k
    have := h k ⟨k.toNat, k.isLt, by simp⟩
    simpa using this
  · rintro h k ⟨j, -, rfl⟩
    simp [h]

theorem lowestKey_some {s : State} {k : Nibble} :
    lowestKey s = some k ↔ s.readKey k = true ∧ ∀ j : Nibble, j.toNat < k.toNat → s.readKey j = false := by
  have := k.isLt
  simp only [lowestKey, Config.numKeys, List.find?_map, Option.map_eq_some_iff, List.find?_range_eq_some]
  simp only [Function.comp_apply, List.mem_range]
  constructor
  · rintro ⟨j, ⟨h1, h2, h3⟩, rfl⟩
    have hj : (BitVec.ofNat 4 j).toNat = j := by rw [BitVec.toNat_ofNat]; omega
    refine ⟨h1, fun i hi => ?_⟩
    have := h3 i.toNat (by omega)
    simpa using this
  · rintro ⟨h1, h2⟩
    refine ⟨k.toNat, ⟨by simpa using h1, by omega, fun j hj => ?_⟩, by simp⟩
    have hj' : (BitVec.ofNat 4 j).toNat = j := by rw [BitVec.toNat_ofNat]; omega
    have := h2 (BitVec.ofNat 4 j) (by omega)
    simpa using this

/-! ### Key skips (R175 to R177) -/

theorem keySkip_of_le {s : State} {x : Nibble} (h : (s.readV x).toNat ≤ 15) (level : Bool) :
    keySkip x level s = .next (s.skipIf (s.keyOf (s.readV x) == level)) := by
  rw [keySkip, if_neg (by omega)]; rfl

theorem keySkip_of_gt {s : State} {x : Nibble} (h : 15 < (s.readV x).toNat) (level : Bool) :
    keySkip x level s = .fault (.outOfRange .key ((s.readV x).setWidth 16)) := by
  rw [keySkip, if_pos h]; rfl

/-! ### Waiting for a key (R178) -/

theorem execLdVxK_of_some {s : State} {k : Nibble} (h : lowestKey s = some k) (x : Nibble) :
    execLdVxK x s = .next (s.setV x (k.setWidth 8)).advance := by simp only [execLdVxK, h]; rfl

theorem execLdVxK_of_none {s : State} (h : lowestKey s = none) (x : Nibble) : execLdVxK x s = .next s := by
  simp only [execLdVxK, h]

/-! ### Answers changed after the fact, and settled at an event boundary (R196) -/

/-- A change to the next state goes through a range check. -/
theorem mapNext_guardRange (f : State → State) (base : Word) (n : Nat) (answer : Result) :
    mapNext f (guardRange base n answer) = guardRange base n (mapNext f answer) := by
  unfold guardRange; split <;> rfl

/-- What a state has and every next state of an answer has, the settled state has. -/
theorem settle_keeps {P : State → Prop} {s : State} {answer : Result} (h : P s) (hn : ∀ t, answer = .next t → P t) :
    P (s.settle answer).1 := by
  cases answer <;> simp only [State.settle]
  · exact hn _ rfl
  · exact h
  · exact h

end Sys2Proof.Machine
end

