-- ==== Sys2Proof/Laws/PerInstr.lean ====
section
/-! SUPPORT. The family EncodedInTable: the word of an instruction is selected by its own row of the opcode map (R74). -/

namespace Sys2Proof.Laws.EncodedInTable

/-- The row of rule R74 the instruction stands for selects the word that encodes it. -/
def Statement (i : Instr) : Prop := (opcodeTable[i.row]?.map fun r => r.selects (encode i)) = some true

/-! The three formats under the masks of R74. -/

theorem and_ones4 (x : Nibble) : x &&& 0xF#4 = x := BitVec.and_allOnes

theorem and_ones8 (x : Byte) : x &&& 0xFF#8 = x := BitVec.and_allOnes

theorem formatNNN_mask (op : Nibble) (nnn : Addr) : formatNNN op nnn &&& 0xF000#16 = formatNNN op 0 := by
  show (op ++ nnn : BitVec (4 + 12)) &&& (0xF#4 ++ 0#12) = (op ++ 0#12 : BitVec (4 + 12))
  simp only [BitVec.and_append, and_ones4, BitVec.and_zero]

theorem formatXNN_mask (op x : Nibble) (nn : Byte) : formatXNN op x nn &&& 0xF000#16 = formatXNN op 0 0 := by
  show (op ++ x ++ nn : BitVec (4 + 4 + 8)) &&& (0xF#4 ++ 0#4 ++ 0#8) = (op ++ 0#4 ++ 0#8 : BitVec (4 + 4 + 8))
  simp only [BitVec.and_append, and_ones4, BitVec.and_zero]

theorem formatXSS_mask (op x : Nibble) (nn : Byte) : formatXNN op x nn &&& 0xF0FF#16 = formatXNN op 0 nn := by
  show (op ++ x ++ nn : BitVec (4 + 4 + 8)) &&& (0xF#4 ++ 0#4 ++ 0xFF#8) = (op ++ 0#4 ++ nn : BitVec (4 + 4 + 8))
  simp only [BitVec.and_append, and_ones4, and_ones8, BitVec.and_zero]

theorem formatXYN_mask (op x y n : Nibble) : formatXYN op x y n &&& 0xF000#16 = formatXYN op 0 0 0 := by
  show (op ++ x ++ y ++ n : BitVec (4 + 4 + 4 + 4)) &&& (0xF#4 ++ 0#4 ++ 0#4 ++ 0#4) = (op ++ 0#4 ++ 0#4 ++ 0#4 : BitVec (4 + 4 + 4 + 4))
  simp only [BitVec.and_append, and_ones4, BitVec.and_zero]

theorem formatXYS_mask (op x y n : Nibble) : formatXYN op x y n &&& 0xF00F#16 = formatXYN op 0 0 n := by
  show (op ++ x ++ y ++ n : BitVec (4 + 4 + 4 + 4)) &&& (0xF#4 ++ 0#4 ++ 0#4 ++ 0xF#4) = (op ++ 0#4 ++ 0#4 ++ n : BitVec (4 + 4 + 4 + 4))
  simp only [BitVec.and_append, and_ones4, BitVec.and_zero]

theorem statement_of_row {i : Instr} (r : OpcodeRow) (h : opcodeTable[i.row]? = some r) (hs : encode i &&& r.mask = r.pattern) :
    Statement i := by rw [Statement, h, Option.map_some, OpcodeRow.selects, hs, beq_self_eq_true]

theorem cls : Statement (.cls) := rfl

theorem ret : Statement (.ret) := rfl

theorem jp (nnn : Addr) : Statement (.jp nnn) := statement_of_row _ rfl (formatNNN_mask _ _)

theorem call (nnn : Addr) : Statement (.call nnn) := statement_of_row _ rfl (formatNNN_mask _ _)

theorem seByte (x : Nibble) (nn : Byte) : Statement (.seByte x nn) := statement_of_row _ rfl (formatXNN_mask _ _ _)

theorem sneByte (x : Nibble) (nn : Byte) : Statement (.sneByte x nn) := statement_of_row _ rfl (formatXNN_mask _ _ _)

theorem seReg (x y : Nibble) : Statement (.seReg x y) := statement_of_row _ rfl (formatXYN_mask _ _ _ _)

theorem ldByte (x : Nibble) (nn : Byte) : Statement (.ldByte x nn) := statement_of_row _ rfl (formatXNN_mask _ _ _)

theorem addByte (x : Nibble) (nn : Byte) : Statement (.addByte x nn) := statement_of_row _ rfl (formatXNN_mask _ _ _)

theorem ldReg (x y : Nibble) : Statement (.ldReg x y) := statement_of_row _ rfl (formatXYS_mask _ _ _ _)

theorem orReg (x y : Nibble) : Statement (.orReg x y) := statement_of_row _ rfl (formatXYS_mask _ _ _ _)

theorem andReg (x y : Nibble) : Statement (.andReg x y) := statement_of_row _ rfl (formatXYS_mask _ _ _ _)

theorem xorReg (x y : Nibble) : Statement (.xorReg x y) := statement_of_row _ rfl (formatXYS_mask _ _ _ _)

theorem addReg (x y : Nibble) : Statement (.addReg x y) := statement_of_row _ rfl (formatXYS_mask _ _ _ _)

theorem subReg (x y : Nibble) : Statement (.subReg x y) := statement_of_row _ rfl (formatXYS_mask _ _ _ _)

theorem shrReg (x y : Nibble) : Statement (.shrReg x y) := statement_of_row _ rfl (formatXYS_mask _ _ _ _)

theorem subnReg (x y : Nibble) : Statement (.subnReg x y) := statement_of_row _ rfl (formatXYS_mask _ _ _ _)

theorem shlReg (x y : Nibble) : Statement (.shlReg x y) := statement_of_row _ rfl (formatXYS_mask _ _ _ _)

theorem sneReg (x y : Nibble) : Statement (.sneReg x y) := statement_of_row _ rfl (formatXYN_mask _ _ _ _)

theorem ldI (nnn : Addr) : Statement (.ldI nnn) := statement_of_row _ rfl (formatNNN_mask _ _)

theorem jpV0 (nnn : Addr) : Statement (.jpV0 nnn) := statement_of_row _ rfl (formatNNN_mask _ _)

theorem rnd (x : Nibble) (nn : Byte) : Statement (.rnd x nn) := statement_of_row _ rfl (formatXNN_mask _ _ _)

theorem drw (x y n : Nibble) : Statement (.drw x y n) := statement_of_row _ rfl (formatXYN_mask _ _ _ _)

theorem skp (x : Nibble) : Statement (.skp x) := statement_of_row _ rfl (formatXSS_mask _ _ _)

theorem sknp (x : Nibble) : Statement (.sknp x) := statement_of_row _ rfl (formatXSS_mask _ _ _)

theorem ldVxDt (x : Nibble) : Statement (.ldVxDt x) := statement_of_row _ rfl (formatXSS_mask _ _ _)

theorem ldVxK (x : Nibble) : Statement (.ldVxK x) := statement_of_row _ rfl (formatXSS_mask _ _ _)

theorem ldDtVx (x : Nibble) : Statement (.ldDtVx x) := statement_of_row _ rfl (formatXSS_mask _ _ _)

theorem ldStVx (x : Nibble) : Statement (.ldStVx x) := statement_of_row _ rfl (formatXSS_mask _ _ _)

theorem addI (x : Nibble) : Statement (.addI x) := statement_of_row _ rfl (formatXSS_mask _ _ _)

theorem ldF (x : Nibble) : Statement (.ldF x) := statement_of_row _ rfl (formatXSS_mask _ _ _)

theorem ldB (x : Nibble) : Statement (.ldB x) := statement_of_row _ rfl (formatXSS_mask _ _ _)

theorem ldMemVx (x : Nibble) : Statement (.ldMemVx x) := statement_of_row _ rfl (formatXSS_mask _ _ _)

theorem ldVxMem (x : Nibble) : Statement (.ldVxMem x) := statement_of_row _ rfl (formatXSS_mask _ _ _)

end Sys2Proof.Laws.EncodedInTable
end

