-- ==== Sys2Proof/Laws/Sprite.lean ====
section
/-! SUPPORT. The sprite engine (R157): what the two loops leave on the framebuffer and in the collision bit, as sets of
covered pixels. -/

namespace Sys2Proof.Machine

/-- The first `n` columns of a sprite row cover the pixel. -/
def RowCovers (x0 y0 : Byte) (r : Nat) (row : Byte) (n : Nat) (px : Fin Config.fbWidth) (py : Fin Config.fbHeight) : Prop :=
  spriteRow y0 r = py ∧ ∃ c, c < n ∧ row.getLsbD (7 - c) = true ∧ spriteColumn x0 c = px

/-- Inverting on one more disjoint condition. -/
theorem not_iff_or {A B C : Prop} (h : B → ¬ C) : ¬ (¬ (A ↔ B) ↔ C) ↔ ¬ (A ↔ (B ∨ C)) := by
  by_cases A <;> by_cases B <;> by_cases C <;> simp_all

/-- What was not covered before is as it was. -/
theorem not_iff_of_not {A B : Prop} (h : ¬ B) : ¬ (A ↔ B) ↔ A := by
  by_cases A <;> simp_all

/-- The columns of one sprite row are distinct: 8 is below the width (R157 c). -/
theorem spriteColumn_inj {x0 : Byte} {c d : Nat} (hc : c < 8) (hd : d < 8) (h : spriteColumn x0 c = spriteColumn x0 d) :
    c = d := by
  simp only [spriteColumn, Fin.mk.injEq] at h
  omega

/-- The rows of one sprite are distinct: 15 is below the height (R157 c). -/
theorem spriteRow_inj {y0 : Byte} {r q : Nat} (hr : r < 16) (hq : q < 16) (h : spriteRow y0 r = spriteRow y0 q) : r = q := by
  simp only [spriteRow, Fin.mk.injEq] at h
  omega

/-- A pixel after one sprite bit. -/
theorem lit_drawBit (cv : Canvas) (x px : Fin Config.fbWidth) (y py : Fin Config.fbHeight) (bit : Bool) :
    Framebuffer.lit (drawBit cv x y bit).fb px py = true ↔
      ¬ (Framebuffer.lit cv.fb px py = true ↔ (bit = true ∧ px = x ∧ py = y)) := by
  cases bit with
  | false => simp [drawBit]
  | true =>
    simp only [drawBit, if_true, Framebuffer.lit_toggle, true_and]
    by_cases h : px = x ∧ py = y
    · simp [h]
    · have hf : (decide (px = x) && decide (py = y)) = false := by
        rw [← Bool.decide_and]; simpa using h
      simp [hf, h]

/-- The collision bit after one sprite bit. -/
theorem collision_drawBit (cv : Canvas) (x : Fin Config.fbWidth) (y : Fin Config.fbHeight) (bit : Bool) :
    (drawBit cv x y bit).collision = true ↔
      cv.collision = true ∨ (bit = true ∧ Framebuffer.lit cv.fb x y = true) := by
  cases bit <;> simp [drawBit]

/-- A pixel after the first `n` columns of a sprite row: inverted iff they cover it. -/
theorem lit_drawRow (x0 y0 : Byte) (r : Nat) (row : Byte) (cv : Canvas) (px : Fin Config.fbWidth)
    (py : Fin Config.fbHeight) {n : Nat} (hn : n ≤ 8) :
    Framebuffer.lit (drawRow x0 y0 r row cv n).fb px py = true ↔
      ¬ (Framebuffer.lit cv.fb px py = true ↔ RowCovers x0 y0 r row n px py) := by
  induction n with
  | zero => simp [drawRow, RowCovers]
  | succ n ih =>
    have hstep : RowCovers x0 y0 r row (n + 1) px py ↔
        (RowCovers x0 y0 r row n px py ∨ (row.getLsbD (7 - n) = true ∧ px = spriteColumn x0 n ∧ py = spriteRow y0 r)) := by
      constructor
      · rintro ⟨hy, c, hc, hb, hx⟩
        by_cases h : c = n
        · subst h; exact .inr ⟨hb, hx.symm, hy.symm⟩
        · exact .inl ⟨hy, c, by omega, hb, hx⟩
      · rintro (⟨hy, c, hc, hb, hx⟩ | ⟨hb, hx, hy⟩)
        · exact ⟨hy, c, by omega, hb, hx⟩
        · exact ⟨hy.symm, n, by omega, hb, hx.symm⟩
    have hdis : RowCovers x0 y0 r row n px py →
        ¬ (row.getLsbD (7 - n) = true ∧ px = spriteColumn x0 n ∧ py = spriteRow y0 r) := by
      rintro ⟨-, c, hc, -, hx⟩ ⟨-, hx', -⟩
      have := spriteColumn_inj (by omega) (by omega) (hx.trans hx')
      omega
    rw [drawRow, lit_drawBit, ih (by omega), hstep]
    exact not_iff_or hdis

/-- The collision bit after the first `n` columns of a sprite row. -/
theorem collision_drawRow (x0 y0 : Byte) (r : Nat) (row : Byte) (cv : Canvas) {n : Nat} (hn : n ≤ 8) :
    (drawRow x0 y0 r row cv n).collision = true ↔ cv.collision = true ∨
      ∃ px py, Framebuffer.lit cv.fb px py = true ∧ RowCovers x0 y0 r row n px py := by
  induction n with
  | zero => simp [drawRow, RowCovers]
  | succ n ih =>
    rw [drawRow, collision_drawBit, ih (by omega)]
    have hnot : ¬ RowCovers x0 y0 r row n (spriteColumn x0 n) (spriteRow y0 r) := by
      rintro ⟨-, c, hc, -, hx⟩
      have := spriteColumn_inj (by omega) (by omega) hx
      omega
    rw [lit_drawRow x0 y0 r row cv _ _ (by omega), not_iff_of_not hnot]
    constructor
    · rintro ((h | ⟨px, py, hl, hy, c, hc, hb, hx⟩) | ⟨hb, hl⟩)
      · exact .inl h
      · exact .inr ⟨px, py, hl, hy, c, by omega, hb, hx⟩
      · exact .inr ⟨_, _, hl, rfl, n, by omega, hb, rfl⟩
    · rintro (h | ⟨px, py, hl, hy, c, hc, hb, hx⟩)
      · exact .inl (.inl h)
      · by_cases h : c = n
        · subst h hy hx; exact .inr ⟨hb, hl⟩
        · exact .inl (.inr ⟨px, py, hl, hy, c, by omega, hb, hx⟩)

/-- The first `n` rows of the sprite at `base` cover the pixel. -/
def RowsCover (m : Memory) (base : Word) (x0 y0 : Byte) (n : Nat) (px : Fin Config.fbWidth) (py : Fin Config.fbHeight) :
    Prop := ∃ r, r < n ∧ RowCovers x0 y0 r (Memory.read m (base + BitVec.ofNat 16 r).toNat) 8 px py

/-- A pixel after the first `n` rows: inverted iff they cover it. -/
theorem lit_drawSprite (m : Memory) (base : Word) (x0 y0 : Byte) (cv : Canvas) (px : Fin Config.fbWidth)
    (py : Fin Config.fbHeight) {n : Nat} (hn : n ≤ 15) :
    Framebuffer.lit (drawSprite m base x0 y0 cv n).fb px py = true ↔
      ¬ (Framebuffer.lit cv.fb px py = true ↔ RowsCover m base x0 y0 n px py) := by
  induction n with
  | zero => simp [drawSprite, RowsCover]
  | succ n ih =>
    have hstep : RowsCover m base x0 y0 (n + 1) px py ↔ (RowsCover m base x0 y0 n px py ∨
        RowCovers x0 y0 n (Memory.read m (base + BitVec.ofNat 16 n).toNat) 8 px py) := by
      constructor
      · rintro ⟨r, hr, h⟩
        by_cases e : r = n
        · subst e; exact .inr h
        · exact .inl ⟨r, by omega, h⟩
      · rintro (⟨r, hr, h⟩ | h)
        · exact ⟨r, by omega, h⟩
        · exact ⟨n, by omega, h⟩
    have hdis : RowsCover m base x0 y0 n px py →
        ¬ RowCovers x0 y0 n (Memory.read m (base + BitVec.ofNat 16 n).toNat) 8 px py := by
      rintro ⟨r, hr, hy, -⟩ ⟨hy', -⟩
      have := spriteRow_inj (by omega) (by omega) (hy.trans hy'.symm)
      omega
    rw [drawSprite, lit_drawRow _ _ _ _ _ _ _ (Nat.le_refl 8), ih (by omega), hstep]
    exact not_iff_or hdis

/-- The collision bit after the first `n` rows: some covered pixel was lit before the sprite (R157 c). -/
theorem collision_drawSprite (m : Memory) (base : Word) (x0 y0 : Byte) (cv : Canvas) {n : Nat} (hn : n ≤ 15) :
    (drawSprite m base x0 y0 cv n).collision = true ↔ cv.collision = true ∨
      ∃ px py, Framebuffer.lit cv.fb px py = true ∧ RowsCover m base x0 y0 n px py := by
  induction n with
  | zero => simp [drawSprite, RowsCover]
  | succ n ih =>
    rw [drawSprite, collision_drawRow _ _ _ _ _ (Nat.le_refl 8), ih (by omega)]
    have hnot : ∀ px py, RowCovers x0 y0 n (Memory.read m (base + BitVec.ofNat 16 n).toNat) 8 px py →
        ¬ RowsCover m base x0 y0 n px py := by
      rintro px py ⟨hy', -⟩ ⟨r, hr, hy, -⟩
      have := spriteRow_inj (by omega) (by omega) (hy.trans hy'.symm)
      omega
    simp only [lit_drawSprite m base x0 y0 cv _ _ (Nat.le_of_succ_le hn)]
    constructor
    · rintro ((h | ⟨px, py, hl, r, hr, h⟩) | ⟨px, py, hl, h⟩)
      · exact .inl h
      · exact .inr ⟨px, py, hl, r, by omega, h⟩
      · exact .inr ⟨px, py, (not_iff_of_not (hnot px py h)).mp hl, n, by omega, h⟩
    · rintro (h | ⟨px, py, hl, r, hr, h⟩)
      · exact .inl (.inl h)
      · by_cases e : r = n
        · subst e
          exact .inr ⟨px, py, (not_iff_of_not (hnot px py h)).mpr hl, h⟩
        · exact .inl (.inr ⟨px, py, hl, r, by omega, h⟩)

/-- Where the row addresses exist, the loop's covered pixels are those of the statement's set. -/
theorem rowsCover_iff_spriteCovers {s : State} {n : Nat} (h : n = 0 ∨ RangeExists s.i n) (x0 y0 : Byte)
    (px : Fin Config.fbWidth) (py : Fin Config.fbHeight) :
    RowsCover s.mem s.i x0 y0 n px py ↔ SpriteCovers s x0 y0 n px py := by
  constructor
  · rintro ⟨r, hr, hy, c, hc, hb, hx⟩
    rw [toNat_add_ofNat (h.resolve_left (by omega)) hr] at hb
    exact ⟨r, c, hr, hc, hb, congrArg Fin.val hx, congrArg Fin.val hy⟩
  · rintro ⟨r, c, hr, hc, hb, hx, hy⟩
    refine ⟨r, hr, Fin.ext hy, c, hc, ?_, Fin.ext hx⟩
    rw [toNat_add_ofNat (h.resolve_left (by omega)) hr]; exact hb

end Sys2Proof.Machine
end

