-- ==== Sys2Proof/Laws/Step.lean ====
section
/-! SUPPORT. What a STEP and an event can do, said once. -/

namespace Sys2Proof.Machine

/-- A fetched word that decodes goes on with its instruction. -/
theorem withDecoded_of_ok {s : State} {i : Instr} (h : decode (fetchWord s) = .ok i) (run : Instr → State → Result) :
    withDecoded s run = run i s := by
  simp only [withDecoded, fetchBytes, decodeBytes_pair]
  simp only [fetchWord] at h
  rw [h]

/-- A fetched word that does not decode raises DecodeError with the word and its address (R191). -/
theorem withDecoded_of_error {s : State} {e : DecodeError} (h : decode (fetchWord s) = .error e)
    (run : Instr → State → Result) : withDecoded s run = .fault (.decodeError (fetchWord s) s.pc) := by
  simp only [withDecoded, fetchBytes, decodeBytes_pair]
  have h' := h
  simp only [fetchWord] at h'
  rw [h']
  rfl

/-- Every answer of a STEP: a fetch fault, a DecodeError, or the answer of the decoded instruction. -/
theorem step_cases (s : State) :
    (¬ RangeExists s.pc 2 ∧
      step s = .fault (.outOfRange .mem (if Config.memSize ≤ s.pc.toNat then s.pc else 0x1000))) ∨
    (RangeExists s.pc 2 ∧ (∃ e, decode (fetchWord s) = .error e) ∧
      step s = .fault (.decodeError (fetchWord s) s.pc)) ∨
    (RangeExists s.pc 2 ∧ ∃ i, decode (fetchWord s) = .ok i ∧ step s = exec i s) := by
  by_cases hr : RangeExists s.pc 2
  · right
    cases hd : decode (fetchWord s) with
    | error e => exact .inl ⟨hr, ⟨e, rfl⟩, by rw [step, fetchAndRun, guardRange_of_exists hr, withDecoded_of_error hd]⟩
    | ok i => exact .inr ⟨hr, i, rfl, by rw [step, fetchAndRun, guardRange_of_exists hr, withDecoded_of_ok hd]⟩
  · exact .inl ⟨hr, by rw [step, fetchAndRun, guardRange_of_not_exists (by decide) hr]⟩

/-- A STEP that answers a next state executed the decoded instruction (R72). -/
theorem step_next {s t : State} (h : step s = .next t) :
    RangeExists s.pc 2 ∧ ∃ i, decode (fetchWord s) = .ok i ∧ exec i s = .next t := by
  rcases step_cases s with ⟨-, he⟩ | ⟨-, -, he⟩ | ⟨hr, i, hd, he⟩
  · rw [he] at h; cases h
  · rw [he] at h; cases h
  · exact ⟨hr, i, hd, he ▸ h⟩

/-- The list of events after one more: the reaction first, then the rest. -/
theorem runEvents_cons (s : State) (e : Event) (es : List Event) :
    (State.runEvents s (e :: es)).1 = (State.runEvents (s.handle e).1 es).1 := rfl

/-- What every event keeps, every run keeps. -/
theorem runEvents_keeps {P : State → Prop} (hk : ∀ s e, P s → P (s.handle e).1) :
    ∀ (es : List Event) (s : State), P s → P (State.runEvents s es).1
  | [], _, h => h
  | e :: es, s, h => runEvents_keeps hk es (s.handle e).1 (hk s e h)

/-- What every event but RESET and LOAD keeps, every run without those two keeps. -/
theorem runEvents_keepsOn {P : State → Prop}
    (hk : ∀ s e, e ≠ .reset → (∀ bytes, e ≠ .load bytes) → P s → P (s.handle e).1) :
    ∀ (es : List Event) (s : State), P s → (∀ e ∈ es, e ≠ .reset ∧ ∀ bytes, e ≠ .load bytes) → P (State.runEvents s es).1
  | [], _, h, _ => h
  | e :: es, s, h, he =>
    runEvents_keepsOn hk es (s.handle e).1 (hk s e (he e List.mem_cons_self).1 (he e List.mem_cons_self).2 h)
      fun e' h' => he e' (List.mem_cons_of_mem _ h')

end Sys2Proof.Machine
end

