-- ==== Sys2Proof/Tests/Slice0.lean ====
section
/-! SUPPORT. Tests of one step each. Expected values are those of spec/95_test_vectors.md (or of the example in the rule
named), never the model's own answers. -/

namespace Sys2Proof.Tests

open Sys2Proof.Machine

/-- The next state of an answer, if it is one. -/
def nextOf : Result → Option State
  | .next t => some t
  | .fault _ => none
  | .refused _ => none

/-- The fault of an answer, if it is one. -/
def faultOf : Result → Option Fault
  | .next _ => none
  | .fault f => some f
  | .refused _ => none

/-- The reset state with an instruction word at 0x200 and some registers set. -/
def start (w : Nat) (regs : List (Nibble × Byte)) : State :=
  (regs.foldl (fun s r => s.setV r.1 r.2) State.reset).withFetchWord 16 w

/-- Registers after one step. -/
def regsAfter (s : State) (xs : List Nibble) : Option (List Byte) := (nextOf (step s)).map fun t => xs.map t.readV

/-- The program counter after one step. -/
def pcAfter (s : State) : Option Word := (nextOf (step s)).map fun t => t.pc

/-! ### Well-formedness: ill-formed words are refused, one for each way to be ill formed (95 part 2.1; R76) -/

theorem test_wf_family0_zero : wordWellFormed 0x0000 = false := by decide
theorem test_wf_family0_whole_word : wordWellFormed 0x01E0 = false := by decide
theorem test_wf_family8_sub : wordWellFormed 0x8AB8 = false := by decide
theorem test_wf_familyE_sub : wordWellFormed 0xEA9F = false := by decide
theorem test_wf_familyF_sub : wordWellFormed 0xFA56 = false := by decide
theorem test_wf_accepts : wordWellFormed 0x5AB7 = true := by decide

/-- The opcode map has 34 rows (R74). -/
theorem test_table_size : opcodeTable.length = 34 := by decide
/-- They are pairwise disjoint: two patterns differ in a bit that both masks fix, so no word is selected by two. -/
theorem test_table_disjoint :
    opcodeTable.Pairwise (fun a b => (a.pattern ^^^ b.pattern) &&& a.mask &&& b.mask ≠ 0) := by decide

/-! ### Decode: words written out from the encodings of R74 (95 part 2.1) -/

theorem test_decode_cls : decode 0b0000000011100000 = .ok .cls := by decide
theorem test_decode_ret : decode 0b0000000011101110 = .ok .ret := by decide
theorem test_decode_jp : decode 0b0001101010111100 = .ok (.jp 0xABC) := by decide
theorem test_decode_call : decode 0b0010101010111100 = .ok (.call 0xABC) := by decide
theorem test_decode_seByte : decode 0b0011101000010010 = .ok (.seByte 0xA 0x12) := by decide
theorem test_decode_sneByte : decode 0b0100101000010010 = .ok (.sneByte 0xA 0x12) := by decide
theorem test_decode_seReg : decode 0b0101101010110000 = .ok (.seReg 0xA 0xB) := by decide
theorem test_decode_seReg_low_nibble : decode 0b0101101010111111 = .ok (.seReg 0xA 0xB) := by decide
theorem test_decode_ldByte : decode 0b0110101000010010 = .ok (.ldByte 0xA 0x12) := by decide
theorem test_decode_addByte : decode 0b0111101000010010 = .ok (.addByte 0xA 0x12) := by decide
theorem test_decode_ldReg : decode 0b1000101010110000 = .ok (.ldReg 0xA 0xB) := by decide
theorem test_decode_orReg : decode 0b1000101010110001 = .ok (.orReg 0xA 0xB) := by decide
theorem test_decode_andReg : decode 0b1000101010110010 = .ok (.andReg 0xA 0xB) := by decide
theorem test_decode_xorReg : decode 0b1000101010110011 = .ok (.xorReg 0xA 0xB) := by decide
theorem test_decode_addReg : decode 0b1000101010110100 = .ok (.addReg 0xA 0xB) := by decide
theorem test_decode_subReg : decode 0b1000101010110101 = .ok (.subReg 0xA 0xB) := by decide
theorem test_decode_shrReg : decode 0b1000101010110110 = .ok (.shrReg 0xA 0xB) := by decide
theorem test_decode_subnReg : decode 0b1000101010110111 = .ok (.subnReg 0xA 0xB) := by decide
theorem test_decode_shlReg : decode 0b1000101010111110 = .ok (.shlReg 0xA 0xB) := by decide
theorem test_decode_sneReg : decode 0b1001101010110101 = .ok (.sneReg 0xA 0xB) := by decide
theorem test_decode_ldI : decode 0b1010000100100011 = .ok (.ldI 0x123) := by decide
theorem test_decode_jpV0 : decode 0b1011000100100011 = .ok (.jpV0 0x123) := by decide
theorem test_decode_rnd : decode 0b1100101000001111 = .ok (.rnd 0xA 0x0F) := by decide
theorem test_decode_drw : decode 0b1101101010110101 = .ok (.drw 0xA 0xB 5) := by decide
theorem test_decode_skp : decode 0b1110101010011110 = .ok (.skp 0xA) := by decide
theorem test_decode_sknp : decode 0b1110101010100001 = .ok (.sknp 0xA) := by decide
theorem test_decode_ldVxDt : decode 0b1111101000000111 = .ok (.ldVxDt 0xA) := by decide
theorem test_decode_ldVxK : decode 0b1111101000001010 = .ok (.ldVxK 0xA) := by decide
theorem test_decode_ldDtVx : decode 0b1111101000010101 = .ok (.ldDtVx 0xA) := by decide
theorem test_decode_ldStVx : decode 0b1111101000011000 = .ok (.ldStVx 0xA) := by decide
theorem test_decode_addI : decode 0b1111101000011110 = .ok (.addI 0xA) := by decide
theorem test_decode_ldF : decode 0b1111101000101001 = .ok (.ldF 0xA) := by decide
theorem test_decode_ldB : decode 0b1111101000110011 = .ok (.ldB 0xA) := by decide
theorem test_decode_ldMemVx : decode 0b1111101001010101 = .ok (.ldMemVx 0xA) := by decide
theorem test_decode_ldVxMem : decode 0b1111101001100101 = .ok (.ldVxMem 0xA) := by decide
theorem test_decode_undefined :
    [0x0000, 0x00E1, 0x0FFF, 0x01E0, 0x0FEE, 0x8AB8, 0x8ABF, 0xEA9F, 0xEA00, 0xFA00, 0xFA1F, 0xFAFF].all
      (fun w => decide (decode w = .error (.undefinedWord w))) = true := by decide
theorem test_decode_truncated : decodeBytes [0x12] = .error (.truncated 1) := by decide
theorem test_fetch_big_endian : decodeBytes [0x12, 0x34, 0x56] = .ok (.jp 0x234, [0x56]) := by decide
theorem test_encode_skp : encode (.skp 0xA) = 0xEA9E := by decide
theorem test_decodeTableWord : decodeTableWord 16 0x8126 = some (.shrReg 1 2) := by decide

/-! ### Control flow (95 part 2.2) -/

theorem test_jp_self : (nextOf (step (start 0x1200 []))) = some (start 0x1200 []) := by decide
theorem test_jp_odd : pcAfter (start 0x1201 []) = some 0x0201 := by decide
theorem test_jpV0_raw_sum : pcAfter (start 0xBFFF [(0, 0xFF)]) = some 0x10FE := by decide
theorem test_call_pushes_own_address :
    (nextOf (exec (.call 0x210) { State.reset with pc := 0x0204 })).map (fun t => (t.stack[0], t.sp, t.pc))
      = some (0x0204, 1, 0x0210) := by decide
theorem test_call_sixteenth :
    (nextOf (exec (.call 0x400) { State.reset with pc := 0x0300, sp := 15 })).map (fun t => (t.stack[15], t.sp, t.pc))
      = some (0x0300, 16, 0x0400) := by decide
theorem test_call_overflow :
    faultOf (exec (.call 0x400) { State.reset with sp := 16 }) = some (.outOfRange .stackOverflow 16) := by decide
theorem test_ret :
    (nextOf (exec .ret { State.reset with pc := 0x0212, sp := 1, stack := State.reset.stack.set 0 0x0204 })).map
      (fun t => (t.sp, t.pc, t.stack[0])) = some (0, 0x0206, 0x0204) := by decide
theorem test_ret_underflow : faultOf (step (start 0x00EE [])) = some (.outOfRange .stackUnderflow 0) := by decide
theorem test_seByte : (pcAfter (start 0x3542 [(5, 0x42)]), pcAfter (start 0x3543 [(5, 0x42)]))
    = (some 0x0204, some 0x0202) := by decide
theorem test_sneByte : (pcAfter (start 0x4542 [(5, 0x42)]), pcAfter (start 0x4543 [(5, 0x42)]))
    = (some 0x0202, some 0x0204) := by decide
theorem test_seReg : (pcAfter (start 0x5120 [(1, 9), (2, 9)]), pcAfter (start 0x5120 [(1, 9), (2, 8)]))
    = (some 0x0204, some 0x0202) := by decide
theorem test_sneReg : (pcAfter (start 0x9120 [(1, 9), (2, 9)]), pcAfter (start 0x9120 [(1, 9), (2, 8)]))
    = (some 0x0202, some 0x0204) := by decide

/-! ### Register and ALU (95 parts 2.3 to 2.6) -/

theorem test_ldByte : regsAfter (start 0x6A12 []) [0xA] = some [0x12] := by decide
theorem test_addByte_no_carry : regsAfter (start 0x7001 [(0, 0xFF), (0xF, 0)]) [0, 0xF] = some [0x00, 0] := by decide
theorem test_ldReg : regsAfter (start 0x8010 [(1, 0x2A)]) [0, 1] = some [0x2A, 0x2A] := by decide
theorem test_orReg_keeps_vf : regsAfter (start 0x8011 [(0, 0x0F), (1, 0xF0), (0xF, 1)]) [0, 0xF] = some [0xFF, 1] := by
  decide
theorem test_andReg : regsAfter (start 0x8012 [(0, 0xF3), (1, 0x3C)]) [0] = some [0x30] := by decide
theorem test_xorReg : regsAfter (start 0x8013 [(0, 0xFF), (1, 0x0F)]) [0] = some [0xF0] := by decide
theorem test_addReg_carry : regsAfter (start 0x8124 [(1, 0x80), (2, 0x80)]) [1, 0xF] = some [0x00, 1] := by decide
theorem test_addReg_old_vf : regsAfter (start 0x81F4 [(1, 200), (0xF, 100)]) [1, 0xF] = some [44, 1] := by decide
theorem test_subReg_borrow : regsAfter (start 0x8015 [(0, 5), (1, 7)]) [0, 0xF] = some [0xFE, 0] := by decide
theorem test_subReg_vf_equal : regsAfter (start 0x8FF5 [(0xF, 0x33)]) [0xF] = some [0] := by decide
theorem test_shrReg_shifts_vy : regsAfter (start 0x8126 [(1, 0x05), (2, 0xF0)]) [1, 2, 0xF] = some [0x78, 0xF0, 1] := by
  decide
theorem test_shrReg_old_vf : regsAfter (start 0x81F6 [(1, 0), (0xF, 0xFE)]) [1, 0xF] = some [0x7F, 0] := by decide
theorem test_subnReg : regsAfter (start 0x8127 [(1, 0x7F), (2, 0x01)]) [1, 0xF] = some [0x82, 0] := by decide
theorem test_subnReg_equal : regsAfter (start 0x8127 [(1, 0xFF), (2, 0xFF)]) [1, 0xF] = some [0, 1] := by decide
theorem test_shlReg : regsAfter (start 0x812E [(1, 0x01), (2, 0xC0)]) [1, 2, 0xF] = some [0x80, 0xC0, 0] := by decide
theorem test_shlReg_vf : regsAfter (start 0x8FFE [(0xF, 0x81)]) [0xF] = some [0x02] := by decide
theorem test_rnd_masked : regsAfter (start 0xC30F []) [3] = some [Config.rnd 0 &&& 0x0F] := by rfl

/-! ### Index and memory (95 part 2.7) -/

theorem test_ldI : (nextOf (step (start 0xAFFF []))).map (fun t => t.i) = some 0x0FFF := by decide
theorem test_addI_wraps :
    (nextOf (exec (.addI 2) ({ State.reset with i := 0xFF80 }.setV 2 0xFF))).map (fun t => t.i) = some 0x007F := by decide
theorem test_ldF_low_nibble : (nextOf (step (start 0xFA29 [(0xA, 0x1A)]))).map (fun t => t.i) = some 0x0032 := by decide
theorem test_ldB :
    (nextOf (exec (.ldB 0) ({ State.reset with i := 0x0FFD }.setV 0 254))).map
      (fun t => ([0xFFD, 0xFFE, 0xFFF].map (Memory.read t.mem), t.i)) = some ([2, 5, 4], 0x0FFD) := by decide
theorem test_ldB_edge :
    faultOf (exec (.ldB 0) { State.reset with i := 0x0FFE }) = some (.outOfRange .mem 0x1000) := by decide
theorem test_ldMemVx :
    (nextOf (exec (.ldMemVx 2) (((({ State.reset with i := 0x0400 }.setV 0 0x11).setV 1 0x22).setV 2 0x33).setV 3 9))).map
      (fun t => ([0x400, 0x401, 0x402, 0x403].map (Memory.read t.mem), t.i)) = some ([0x11, 0x22, 0x33, 0], 0x0403) := by
  decide
theorem test_ldMemVx_edge :
    (faultOf (exec (.ldMemVx 0xF) { State.reset with i := 0x0FF1 }),
      (nextOf (exec (.ldMemVx 0xF) { State.reset with i := 0x0FF0 })).map (fun t => t.i))
      = (some (.outOfRange .mem 0x1000), some 0x1000) := by decide
theorem test_ldVxMem_font : regsAfter (start 0xF465 []) [0, 1, 2, 3, 4, 5] = some [0xF0, 0x90, 0x90, 0x90, 0xF0, 0] := by
  decide
theorem test_ldVxMem_edge :
    faultOf (exec (.ldVxMem 1) { State.reset with i := 0x0FFF }) = some (.outOfRange .mem 0x1000) := by decide

/-! ### Display (95 part 2.8 and P3) -/

/-- The state before the first draw of program P3: a 2-row sprite at 0x20C, V1 = 62, V2 = 31. -/
def beforeDraw : State :=
  (({ State.reset with i := 0x020C, mem := Memory.store [] 0x020C [0xC3, 0x81] }.setV 1 62).setV 2 31).setV 0xF 7

/-- The pixels that are lit, by row-major number. -/
def litPixels (fb : Framebuffer) : List Nat :=
  ((List.range 32).map fun y => ((List.range 64).filter fun x => (fb[y]?.getD 0).getLsbD x).map fun x => y * 64 + x).flatten

theorem test_drw_wraps :
    (nextOf (exec (.drw 1 2 2) beforeDraw)).map (fun t => (litPixels t.fb, t.readV vf, t.chg))
      = some ([5, 62, 1988, 1989, 2046, 2047], 0, true) := by decide
theorem test_drw_twice :
    (nextOf (exec (.drw 1 2 2) { beforeDraw with fb := (drwCanvas 1 2 2 beforeDraw).fb })).map
      (fun t => (litPixels t.fb, t.readV vf)) = some ([], 1) := by decide
theorem test_drw_no_rows : (nextOf (exec (.drw 0 1 0) { State.reset with i := 0x1234 })).map (fun t => (t.chg, t.pc))
    = some (true, 0x0202) := by decide
theorem test_drw_edge : faultOf (exec (.drw 0 1 2) { State.reset with i := 0x0FFF }) = some (.outOfRange .mem 0x1000) := by
  decide
theorem test_cls : (nextOf (exec .cls { State.reset with fb := (drwCanvas 1 2 2 beforeDraw).fb })).map
    (fun t => (litPixels t.fb, t.chg, t.pc)) = some ([], true, 0x0202) := by decide

/-! ### Timers and keypad (95 part 2.9) -/

theorem test_ldVxDt : (nextOf (exec (.ldVxDt 3) { State.reset with dt := 0x2C })).map (fun t => (t.readV 3, t.dt))
    = some (0x2C, 0x2C) := by decide
theorem test_ldDtVx : (nextOf (step (start 0xF015 [(0, 3)]))).map (fun t => (t.dt, t.st)) = some (3, 0) := by decide
theorem test_ldStVx : (nextOf (step (start 0xF418 [(4, 1)]))).map (fun t => (t.st, t.dt, t.tone)) = some (1, 0, true) := by
  decide
theorem test_skp : (pcAfter ((start 0xE59E [(5, 0xA)]).setKey 0xA true), pcAfter (start 0xE59E [(5, 0xA)]))
    = (some 0x0204, some 0x0202) := by decide
theorem test_skp_no_masking :
    faultOf (step ((start 0xE59E [(5, 0x1A)]).setKey 0xA true)) = some (.outOfRange .key 0x1A) := by decide
theorem test_sknp : (pcAfter ((start 0xE5A1 [(5, 0xA)]).setKey 0xA true), pcAfter (start 0xE5A1 [(5, 0xA)]))
    = (some 0x0202, some 0x0204) := by decide
theorem test_sknp_fault : faultOf (step (start 0xE5A1 [(5, 0x10)])) = some (.outOfRange .key 0x10) := by decide
theorem test_ldVxK_waits : nextOf (step (start 0xF30A [])) = some (start 0xF30A []) := by decide
theorem test_ldVxK_lowest :
    (nextOf (step (((start 0xF30A []).setKey 2 true).setKey 9 true))).map (fun t => (t.readV 3, t.pc))
      = some (2, 0x0202) := by decide

/-! ### Events, reset, faults of a fetch (95 parts 2.8 to 2.10 and P6) -/

theorem test_tick_sample :
    (({ State.reset with dt := 1, st := 1 } : State).handle .tick) = (State.reset, .tone true) := by decide
theorem test_load : ((State.reset.handle (.load [0x12, 0x34, 0x56])).1.mem, State.reset.pc)
    = ([(0x200, 0x12), (0x201, 0x34), (0x202, 0x56)], 0x0200) := by decide
theorem test_fbread : (({ State.reset with chg := true } : State).handle .fbread)
    = (State.reset, .frame true State.reset.fb) := by decide
theorem test_zeroed_memory_is_undefined : faultOf (step State.reset) = some (.decodeError 0x0000 0x0200) := by decide
theorem test_fetch_second_byte : faultOf (step { State.reset with pc := 0x0FFF }) = some (.outOfRange .mem 0x1000) := by
  decide
theorem test_fetch_first_byte : faultOf (step { State.reset with pc := 0x10FE }) = some (.outOfRange .mem 0x10FE) := by
  decide
theorem test_store_canonical :
    (Memory.write (Memory.write [] 0x300 7) 0x300 0, Memory.write [] 0 0xAA) = ([], [(0, 0xAA)]) := by decide
theorem test_reset_inv : Memory.wf State.reset.mem = true := by decide

/-! ### Witnesses: for every obligation with hypotheses, states and operands that meet them, at the boundaries -/

/-- Reset with `I` and `pc` chosen. -/
def placed (i pc : Word) : State := { State.reset with i := i, pc := pc }

/-- Reset with `sp` chosen. -/
def withSp (sp : Byte) : State := { State.reset with sp := sp }

/-- The hypothesis of every `DecodesTo`: a word that the row's pattern matches, the row's ignored bits set. -/
theorem witness_DecodesTo_whole_families :
    [(0x1000, 0x1FFF), (0x2000, 0x2FFF), (0x3000, 0x3FFF), (0x4000, 0x4FFF), (0x5000, 0x5FFF), (0x6000, 0x6FFF),
     (0x7000, 0x7FFF), (0x9000, 0x9FFF), (0xA000, 0xAFFF), (0xB000, 0xBFFF), (0xC000, 0xCFFF), (0xD000, 0xDFFF)].all
      (fun r : Word × Word => r.2 &&& 0xF000 == r.1) = true := by decide
theorem witness_DecodesTo_family8 :
    [(0x8000, 0x8FF0), (0x8001, 0x8FF1), (0x8002, 0x8FF2), (0x8003, 0x8FF3), (0x8004, 0x8FF4), (0x8005, 0x8FF5),
     (0x8006, 0x8FF6), (0x8007, 0x8FF7), (0x800E, 0x8FFE)].all
      (fun r : Word × Word => r.2 &&& 0xF00F == r.1) = true := by decide
theorem witness_DecodesTo_families_E_and_F :
    [(0xE09E, 0xEF9E), (0xE0A1, 0xEFA1), (0xF007, 0xFF07), (0xF00A, 0xFF0A), (0xF015, 0xFF15), (0xF018, 0xFF18),
     (0xF01E, 0xFF1E), (0xF029, 0xFF29), (0xF033, 0xFF33), (0xF055, 0xFF55), (0xF065, 0xFF65)].all
      (fun r : Word × Word => r.2 &&& 0xF0FF == r.1) = true := by decide
theorem witness_DecodesTo_family0 : (0x00E0 : Word) &&& 0xFFFF = 0x00E0 ∧ (0x00EE : Word) &&& 0xFFFF = 0x00EE := by decide

theorem witness_EncodeOfDecodeIsCanonicalWord :
    decode 0x5AB7 = .ok (.seReg 0xA 0xB) ∧ fieldOp 0x5AB7 = 0x5#4 ∧ decode 0x9ABF = .ok (.sneReg 0xA 0xB) ∧
    fieldOp 0x9ABF = 0x9#4 ∧ decode 0x8ABE = .ok (.shlReg 0xA 0xB) := by decide
theorem witness_DecodeSucceedsExactlyOnTheOpcodeMap : wordWellFormed 0xFA01 = false ∧ wordWellFormed 0xFA65 = true := by
  decide
theorem witness_StepRunsTheDecodedInstruction :
    (start 0x00E0 []).pc.toNat + 1 < Config.memSize ∧
    decode (wordOfBytes (Memory.read (start 0x00E0 []).mem 0x200) (Memory.read (start 0x00E0 []).mem 0x201)) = .ok .cls ∧
    (placed 0 0x0FFE).pc.toNat + 1 < Config.memSize := by decide
theorem witness_StepFaultsInTheOrderFetchDecodeExecute :
    Config.memSize ≤ (placed 0 0x1000).pc.toNat ∧ (placed 0 0x0FFF).pc = 0x0FFF ∧
    (placed 0 0x0FFE).pc.toNat + 1 < Config.memSize ∧ wordWellFormed (fetchWord (placed 0 0x0FFE)) = false := by decide
theorem witness_PlacedInstructionIsTheOneStepped :
    Memory.wf (placed 0 0x0FFE).mem = true ∧ (placed 0 0x0FFE).pc.toNat + 1 < Config.memSize := by decide
theorem witness_StoredRegistersAreTheNextFetch :
    Memory.wf (placed 0x0FFE 0x0FFC).mem = true ∧ (placed 0x0FFE 0x0FFC).i = (placed 0x0FFE 0x0FFC).pc + 2 ∧
    1 ≤ (1 : Nibble).toNat ∧ RangeExists (placed 0x0FFE 0x0FFC).i ((1 : Nibble).toNat + 1) := by decide
theorem witness_JumpSetsThePc : (placed 0 0x0ABC).pc = (0xABC : Addr).setWidth 16 := by decide
theorem witness_CallPushesItsOwnAddress :
    (withSp 0).sp.toNat < 16 ∧ (withSp 15).sp.toNat < 16 ∧ (14 : Fin 16).val ≠ (withSp 15).sp.toNat ∧
    16 ≤ (withSp 16).sp.toNat ∧ 16 ≤ (withSp 17).sp.toNat := by decide
theorem witness_ReturnPopsAndAdvancesByTwo :
    (0 < (withSp 1).sp.toNat ∧ (withSp 1).sp.toNat ≤ 16 ∧ (0 : Fin 16).val + 1 = (withSp 1).sp.toNat) ∧
    (0 < (withSp 16).sp.toNat ∧ (withSp 16).sp.toNat ≤ 16 ∧ (15 : Fin 16).val + 1 = (withSp 16).sp.toNat) ∧
    (withSp 0).sp = 0 ∧ 16 < (withSp 17).sp.toNat := by decide
theorem witness_CallThenReturnComesBackAfterTheCall : (withSp 0).sp.toNat < 16 ∧ (withSp 15).sp.toNat < 16 := by decide
theorem witness_JumpWithOffsetIsTheRawSum :
    0x1000 ≤ (0xF01 : Addr).toNat + ((State.reset.setV 0 0xFF).readV 0).toNat := by decide
theorem witness_ImmediateSkipsCompareVxWithNn :
    (State.reset.setV 0xF 0xFF).readV 0xF = (0xFF : Byte) ∧ (State.reset.setV 0xF 0xFF).readV 0xF ≠ (0xFE : Byte) := by decide
theorem witness_RegisterSkipsCompareTwoRegisters :
    (State.reset.setV 1 9).readV 1 = (State.reset.setV 1 9).readV 1 ∧
    (State.reset.setV 1 9).readV 1 ≠ (State.reset.setV 1 9).readV 2 := by decide
theorem witness_OtherRegsSame : (0xE : Nibble) ≠ 0xF := by decide
theorem witness_FlagTruthTables :
    (0 : Nibble) ≠ 0xF ∧ (0xE : Nibble) ≠ 0xF ∧
    ((State.reset.setV 0 0x80).readV 0).toNat + ((State.reset.setV 0 0x80).readV 0).toNat > 255 ∧
    ¬ ((State.reset.setV 0 0x7F).readV 0).toNat + ((State.reset.setV 0 0x7F).readV 0).toNat > 255 ∧
    ((State.reset.setV 1 1).readV 0).toNat < ((State.reset.setV 1 1).readV 1).toNat := by decide
/-- For the five flag-writing operations: X apart from F, and a register apart from both. -/
theorem witness_FlagWritingOperations : (0 : Nibble) ≠ 0xF ∧ (3 : Nibble) ≠ 0 ∧ (3 : Nibble) ≠ 0xF := by decide
theorem witness_BcdStoresThreeDigits :
    Memory.wf (placed 0x0FFD 0x200).mem = true ∧ RangeExists (placed 0x0FFD 0x200).i 3 := by decide
theorem witness_RegisterDumpStoresAndMovesIndex :
    Memory.wf (placed 0x0FF0 0x200).mem = true ∧ RangeExists (placed 0x0FF0 0x200).i ((0xF : Nibble).toNat + 1) ∧
    (0xF : Nibble).toNat ≤ (0xF : Nibble).toNat := by decide
theorem witness_RegisterLoadReadsAndMovesIndex :
    RangeExists (placed 0x0FF0 0x200).i ((0xF : Nibble).toNat + 1) ∧ (0xE : Nibble).toNat < (0xF : Nibble).toNat := by decide
theorem witness_DumpAndLoadPostIncrementNeverWraps :
    (nextOf (exec (.ldMemVx 0) (placed 0x0FFF 0x200))).isSome = true ∧
    (nextOf (exec (.ldVxMem 0) (placed 0x0FFF 0x200))).isSome = true ∧
    (placed 0x0FFF 0x200).i.toNat + (0 : Nibble).toNat < Config.memSize := by decide
theorem witness_DumpThenLoadRestoresRegisters :
    Memory.wf (placed 0x0FFF 0x200).mem = true ∧ RangeExists (placed 0x0FFF 0x200).i ((0 : Nibble).toNat + 1) := by decide
theorem witness_MemoryInstructionsFaultBeforeWriting :
    ¬ RangeExists (placed 0x0FFE 0x200).i 3 ∧ ¬ RangeExists (placed 0x0FFF 0x200).i ((1 : Nibble).toNat + 1) ∧
    1 ≤ (2 : Nibble).toNat ∧ ¬ RangeExists (placed 0x0FFF 0x200).i (2 : Nibble).toNat ∧
    Config.memSize ≤ (placed 0xFFFF 0x200).i.toNat ∧ ¬ RangeExists (placed 0xFFFF 0x200).i 3 := by decide
theorem witness_DrawXorsTheSpriteWithWrapAndCollision :
    RangeExists beforeDraw.i (2 : Nibble).toNat ∧ RangeExists (placed 0x0FF1 0x200).i (0xF : Nibble).toNat := by decide
theorem witness_DrawTwiceRestoresTheFramebuffer :
    (nextOf (exec (.drw 1 2 2) beforeDraw)).map
      (fun t => decide (t.readV 1 = beforeDraw.readV 1) && decide (t.readV 2 = beforeDraw.readV 2)) = some true := by decide
theorem witness_FbReadReturnsAndClearsTheChangeFlag : ({ State.reset with chg := true } : State).chg = true := by decide
theorem witness_ChangeFlagIsSetByDrawingAndReadByNoInstruction :
    (nextOf (exec .cls State.reset)).isSome = true ∧
    (nextOf (exec (.drw 1 2 2) beforeDraw)).map (fun t => decide (t.fb ≠ beforeDraw.fb)) = some true ∧
    (nextOf (exec (.jp 0x200) State.reset)).isSome = true ∧ Instr.jp 0x200 ≠ .cls ∧
    Event.step ≠ .fbread ∧ Event.step ≠ .reset ∧ ({ State.reset with chg := true } : State).chg = true := by decide
theorem witness_not_drw : ∀ x y n, Instr.jp 0x200 ≠ .drw x y n := by simp
theorem witness_SetSoundTimerWritesSt : ∀ x, Instr.ldVxDt 3 ≠ .ldStVx x := by simp
theorem witness_KeySkipsTestTheKeyLevel :
    ((State.reset.setV 5 15).readV 5).toNat = (15 : Nibble).toNat ∧ ((State.reset.setV 5 0).readV 5).toNat = (0 : Nibble).toNat ∧
    15 < ((State.reset.setV 5 16).readV 5).toNat := by decide
theorem witness_WaitForKeyReportsTheLowestPressedKey :
    (State.reset.setKey 15 true).readKey 15 = true ∧
    (∀ j : Nibble, j.toNat < (15 : Nibble).toNat → (State.reset.setKey 15 true).readKey j = false) ∧
    (State.reset.setKey 0 true).readKey 0 = true ∧ ∀ k, State.reset.readKey k = false := by decide
theorem witness_KeysetWritesOneFlag :
    (1 : Nibble) ≠ 2 ∧ (State.reset.setKey 2 true).readKey 2 = true ∧ State.reset.readKey 2 = false := by decide
theorem witness_ResetStateIsZeroWithTheFontInstalled : 79 < 80 ∧ 80 ≤ 4095 ∧ 4095 < 4096 := by decide
theorem witness_LoadWritesTheRomOrRefusesIt :
    Memory.wf State.reset.mem = true ∧ (List.replicate 3584 (0x12 : Byte)).length ≤ 3584 ∧
    3583 < (List.replicate 3584 (0x12 : Byte)).length ∧ 3584 < (List.replicate 3585 (0x12 : Byte)).length ∧
    ([] : List Byte).length ≤ 3584 := by
  rw [List.length_replicate, List.length_replicate]; decide
/-- One completing instruction for the frame statements and for the rule of the program counter. -/
theorem witness_InstructionsWriteOnlyTheirState : ∃ t, exec (.ldB 0) (placed 0x0FFD 0x200) = .next t := ⟨_, rfl⟩
theorem witness_RegistersChangeOnlyAsDestinations :
    (∃ t, exec (.ldVxMem 3) (placed 0x0FFC 0x200) = .next t) ∧ registerWritten 4 (.ldVxMem 3) = false := ⟨⟨_, rfl⟩, by decide⟩
theorem witness_ProgramCounterMovesByTheRule : ∃ t, exec .ret (withSp 16) = .next t := ⟨_, rfl⟩
theorem witness_OnlyEightInstructionsFaultAndOnlyTheirWay :
    (withSp 16).sp.toNat ≤ 16 ∧ exec (.call 0) (withSp 16) = .fault (.outOfRange .stackOverflow 16) ∧
    exec .ret (withSp 0) = .fault (.outOfRange .stackUnderflow 0) ∧
    exec (.drw 0 0 1) (placed 0x1000 0x200) = .fault (.outOfRange .mem 0x1000) := ⟨by decide, rfl, rfl, rfl⟩
theorem witness_FaultingStepRepeatsUntilTheHostInterferes :
    step State.reset = .fault (.decodeError 0 0x200) ∧ Event.tick ≠ .reset ∧ Event.step ≠ .reset :=
  ⟨rfl, by decide, by decide⟩
theorem witness_not_load : ∀ e ∈ [Event.tick, .step, .fbread, .keyset 3 true], e ≠ .reset ∧ ∀ bytes, e ≠ .load bytes := by
  simp
theorem witness_SelfJumpIsTheEndOfARun :
    (start 0x1200 []).pc.toNat + 1 < Config.memSize ∧ decode (fetchWord (start 0x1200 [])) = .ok (.jp 0x200) ∧
    (0x200 : Addr).setWidth 16 = (start 0x1200 []).pc := by decide
/-- Word FA0A at 0x200 with no key pressed: a wait for a key (R178). -/
theorem witness_EndOfARunLastsAndAWaitIsNone :
    AtSelfJump (start 0x1200 []) ∧ RunEnded State.reset ∧ (start 0xFA0A []).pc.toNat + 1 < Config.memSize ∧
    decode (fetchWord (start 0xFA0A [])) = .ok (.ldVxK 0xA) ∧ ∀ j, (start 0xFA0A []).readKey j = false :=
  ⟨⟨by decide, 0x200, by decide, by decide⟩, .inr ⟨.decodeError 0 0x200, rfl⟩, by decide, by decide, by decide⟩
theorem witness_StepKeepsTheInvariant : Inv (start 0x2204 []) ∧ (nextOf (step (start 0x2204 []))).isSome = true := by decide
theorem witness_EveryReachableStateMeetsTheInvariant :
    Inv State.reset ∧ Reachable (State.runEvents State.reset [.load [0x12, 0x00], .step, .tick]).1 := ⟨by decide, _, rfl⟩

end Sys2Proof.Tests
end

/-! PROOFS. The change flag (R30). The idea is one case split over the instructions: apart from CLS and DRW an
instruction neither reads nor writes the display, so it commutes with replacing FB and CHG together. Its frame on FB and
CHG (replace both by what they are) and its blindness to CHG (replace CHG alone) are two special cases of that. -/

namespace Sys2Proof.Machine

/-! ### Answers changed after the fact -/

/-- Two changes that agree on the next state of an answer change it alike. -/
theorem mapNext_congr {f g : State → State} {r : Result} (h : ∀ t, r = .next t → f t = g t) :
    mapNext f r = mapNext g r := by
  cases r with
  | next t => exact congrArg _ (h t rfl)
  | fault _ | refused _ => rfl

/-- A change that leaves the next state of an answer alone leaves the answer alone. -/
theorem mapNext_eq_self {f : State → State} {r : Result} (h : ∀ t, r = .next t → f t = t) : mapNext f r = r := by
  cases r with
  | next t => exact congrArg _ (h t rfl)
  | fault _ | refused _ => rfl

/-! ### The display replaced -/

/-- `s` with another framebuffer and another change flag. -/
def State.withDisplay (s : State) (fb : Framebuffer) (c : Bool) : State := { s with fb := fb, chg := c }

/-- The instructions that draw: CLS and DRW, the writers of FB and of CHG among the instructions (R20, R30). -/
abbrev Draws (i : Instr) : Prop := i = .cls ∨ ∃ x y n, i = .drw x y n

section
variable (s : State) (fb : Framebuffer) (c : Bool)

theorem guardRange_withDisplay {base : Word} {n : Nat} {answer answer' : Result}
    (h : answer' = mapNext (·.withDisplay fb c) answer) :
    guardRange base n answer' = mapNext (·.withDisplay fb c) (guardRange base n answer) := by
  rw [h, mapNext_guardRange]

theorem pushAndGo_withDisplay (target : Word) :
    pushAndGo (s.withDisplay fb c) target = mapNext (·.withDisplay fb c) (pushAndGo s target) := by
  unfold pushAndGo
  rw [apply_dite (mapNext _)]
  rfl

theorem popAndReturn_withDisplay :
    popAndReturn (s.withDisplay fb c) = mapNext (·.withDisplay fb c) (popAndReturn s) := by
  unfold popAndReturn
  rw [apply_ite (mapNext _), apply_dite (mapNext _)]
  rfl

theorem keySkip_withDisplay (x : Nibble) (level : Bool) :
    keySkip x level (s.withDisplay fb c) = mapNext (·.withDisplay fb c) (keySkip x level s) := by
  unfold keySkip
  rw [apply_ite (mapNext _)]
  rfl

theorem execLdVxK_withDisplay (x : Nibble) :
    execLdVxK x (s.withDisplay fb c) = mapNext (·.withDisplay fb c) (execLdVxK x s) := by
  cases h : lowestKey s with
  | some k => rw [execLdVxK_of_some h, execLdVxK_of_some (s := s.withDisplay fb c) h]; rfl
  | none => rw [execLdVxK_of_none h, execLdVxK_of_none (s := s.withDisplay fb c) h]; rfl

/-- An instruction that does not draw neither reads nor writes the display. -/
theorem exec_withDisplay {i : Instr} (hi : ¬ Draws i) :
    exec i (s.withDisplay fb c) = mapNext (·.withDisplay fb c) (exec i s) := by
  cases i with
  | cls => exact absurd (.inl rfl) hi
  | drw x y n => exact absurd (.inr ⟨x, y, n, rfl⟩) hi
  | ret => exact popAndReturn_withDisplay s fb c
  | call nnn => exact pushAndGo_withDisplay s fb c _
  | skp x => exact keySkip_withDisplay s fb c x true
  | sknp x => exact keySkip_withDisplay s fb c x false
  | ldVxK x => exact execLdVxK_withDisplay s fb c x
  | ldB x | ldMemVx x | ldVxMem x => exact guardRange_withDisplay fb c rfl
  | _ => rfl

end

/-! ### CHG and FB over one instruction -/

/-- An instruction that does not draw keeps FB and CHG. -/
theorem exec_keeps_display {i : Instr} (hi : ¬ Draws i) {s t : State} (h : exec i s = .next t) :
    t.fb = s.fb ∧ t.chg = s.chg := by
  have hself := exec_withDisplay s s.fb s.chg hi
  rw [show s.withDisplay s.fb s.chg = s from rfl, h] at hself
  have ht : t = t.withDisplay s.fb s.chg := Host.Outcome.next.inj hself
  rw [ht]
  exact ⟨rfl, rfl⟩

/-- CLS and DRW leave CHG = 1 where they complete, whether or not a pixel changed (R30). -/
theorem exec_sets_chg {i : Instr} (hi : Draws i) {s t : State} (h : exec i s = .next t) : t.chg = true := by
  obtain rfl | ⟨x, y, n, rfl⟩ := hi
  · cases h; rfl
  · cases (guardRange_next h).2; rfl

/-- CLS and DRW answer the same whatever CHG was: they overwrite it. -/
theorem exec_withChg_of_draws {i : Instr} (hi : Draws i) (s : State) (b : Bool) :
    exec i { s with chg := b } = exec i s := by
  obtain rfl | ⟨x, y, n, rfl⟩ := hi <;> rfl

/-- An instruction that does not draw passes CHG through, unread. -/
theorem exec_withChg_of_not_draws {i : Instr} (hi : ¬ Draws i) (s : State) (b : Bool) :
    exec i { s with chg := b } = mapNext (fun t => { t with chg := b }) (exec i s) :=
  calc exec i (s.withDisplay s.fb b)
    _ = mapNext (·.withDisplay s.fb b) (exec i s) := exec_withDisplay s s.fb b hi
    _ = mapNext (fun t => { t with chg := b }) (exec i s) :=
      mapNext_congr fun t h => by rw [← (exec_keeps_display hi h).1]; rfl

/-- No instruction clears CHG. -/
theorem exec_keeps_chg_set {i : Instr} {s t : State} (hs : s.chg = true) (h : exec i s = .next t) : t.chg = true := by
  by_cases hi : Draws i
  · exact exec_sets_chg hi h
  · exact (exec_keeps_display hi h).2.trans hs

/-! ### CHG over one event -/

/-- LOAD keeps CHG, since it writes memory alone (R207). -/
theorem load_keeps_chg {s t : State} {bytes : List Byte} (h : s.load bytes = .next t) : t.chg = s.chg := by
  unfold State.load at h
  split at h
  · cases h
  · cases h; rfl

/-- Among the events only FBREAD and RESET clear CHG (R30). -/
theorem handle_keeps_chg_set {s : State} {e : Event} (hf : e ≠ .fbread) (hr : e ≠ .reset) (hs : s.chg = true) :
    (s.handle e).1.chg = true := by
  cases e with
  | fbread => exact absurd rfl hf
  | reset => exact absurd rfl hr
  | tick | keyset => exact hs
  | load bytes => exact settle_keeps (P := (·.chg = true)) hs fun t h => (load_keeps_chg h).trans hs
  | step =>
    refine settle_keeps (P := (·.chg = true)) hs fun t h => ?_
    obtain ⟨-, i, -, hx⟩ := step_next h
    exact exec_keeps_chg_set hs hx

/-- Settles O40: an instruction that does not draw commutes with replacing the display, and one that draws overwrites
CHG. -/
theorem changeFlagIsSetByDrawingAndReadByNoInstruction :
    Obligations.ChangeFlagIsSetByDrawingAndReadByNoInstruction := by
  refine ⟨fun s t h => exec_sets_chg (.inl rfl) h, fun x y n s t h => exec_sets_chg (.inr ⟨x, y, n, rfl⟩) h, ?_, ?_,
    fun s e hf hr hs => handle_keeps_chg_set hf hr hs, fun s => ⟨rfl, rfl⟩, ?_⟩
  · intro i s t hcls hdrw h
    have hi : ¬ Draws i := by rintro (hc | ⟨x, y, n, hd⟩); exacts [hcls hc, hdrw x y n hd]
    exact (exec_keeps_display hi h).2
  · intro i s t h hfb
    by_cases hi : Draws i
    · exact exec_sets_chg hi h
    · exact absurd (exec_keeps_display hi h).1 hfb
  · intro i s b
    by_cases hi : Draws i
    · simp only [if_pos hi]
      rw [exec_withChg_of_draws hi, mapNext_eq_self fun t h => by rw [← exec_sets_chg hi h]]
    · simp only [if_neg hi]
      exact exec_withChg_of_not_draws hi s b

end Sys2Proof.Machine

/-! PROOFS. Decode after encode (R70 to R75). The formats' field lemmas do the work: the encoder puts each operand into a
field of its format, the decoder selects the row by the remaining fields and reads the operands back. So the case split
over the instructions groups them by where rule R75 decides: by the family nibble alone, or further by the low nibble
(family 8) or the low byte (families E and F). -/

namespace Sys2Proof

/-- The decoder gives back every instruction from its word. -/
theorem decode_encode (i : Instr) : decode (encode i) = .ok i := by
  cases i with
  | cls | ret => decide
  | jp nnn | call nnn | ldI nnn | jpV0 nnn => simp [encode, decode]
  | seByte x nn | sneByte x nn | ldByte x nn | addByte x nn | rnd x nn => simp [encode, decode]
  | seReg x y | sneReg x y | drw x y n => simp [encode, decode]
  | ldReg x y | orReg x y | andReg x y | xorReg x y | addReg x y | subReg x y | shrReg x y | subnReg x y | shlReg x y =>
    simp [encode, decode_family8, decodeFamily8]
  | skp x | sknp x => simp [encode, decode_familyE, decodeFamilyE]
  | ldVxDt x | ldVxK x | ldDtVx x | ldStVx x | addI x | ldF x | ldB x | ldMemVx x | ldVxMem x =>
    simp [encode, decode_familyF, decodeFamilyF]

/-- The two bytes of a word in memory order decode to what the word decodes to, and leave the bytes after them. -/
theorem decodeBytes_of_ok {w : Word} {i : Instr} (h : decode w = .ok i) (rest : List Byte) :
    decodeBytes (highByte w :: lowByte w :: rest) = .ok (i, rest) := by
  rw [decodeBytes_pair, wordOfBytes_bytes, h]

end Sys2Proof

namespace Sys2Proof.Machine

/-- Settles O1: the decoder reads back each field of the format the encoder used, and a word is its two bytes. -/
theorem decodeOfEncodeIsIdentity : Obligations.DecodeOfEncodeIsIdentity :=
  fun i => ⟨decode_encode i, decodeBytes_of_ok (decode_encode i)⟩

end Sys2Proof.Machine

/-! PROOFS. The absolute jump and the immediate skips (R101, R104, R105). Both write `pc` alone through `setPc`, so one
frame lemma serves them; both rows of the opcode map fix nothing but the family nibble, so one lemma decodes them. -/

namespace Sys2Proof.Machine

/-! ### Rows that decode by the family nibble -/

/-- A row whose mask holds the whole family nibble decodes as its family does. -/
theorem decodesTo_of_fieldOp {mask pattern : Word} {instr : Word → Instr} (hm : fieldOp mask = 0xF#4)
    (hd : ∀ w, fieldOp w = fieldOp pattern → decode w = .ok (instr w)) : DecodesTo mask pattern instr :=
  fun w h => hd w (fieldOp_of_mask h hm)

theorem decodesTo_jp : DecodesTo 0xF000 0x1000 (fun w => .jp (fieldNNN w)) :=
  decodesTo_of_fieldOp rfl fun w (h : fieldOp w = 0x1#4) => by simp only [decode, h]

theorem decodesTo_seByte : DecodesTo 0xF000 0x3000 (fun w => .seByte (fieldX w) (fieldNN w)) :=
  decodesTo_of_fieldOp rfl fun w (h : fieldOp w = 0x3#4) => by simp only [decode, h]

theorem decodesTo_sneByte : DecodesTo 0xF000 0x4000 (fun w => .sneByte (fieldX w) (fieldNN w)) :=
  decodesTo_of_fieldOp rfl fun w (h : fieldOp w = 0x4#4) => by simp only [decode, h]

/-! ### The program counter written alone -/

/-- Writing `pc` leaves every other piece of state as it was. -/
theorem sameExcept_setPc (s : State) (a : Word) : SameExcept [.pc] s (s.setPc a) := by
  intro p hp
  cases p with
  | pc => exact absurd List.mem_cons_self hp
  | v => exact State.readV_setPc s a
  | mem => exact fun _ => rfl
  | _ => rfl

/-- Writing to `pc` what it holds changes nothing. -/
theorem setPc_of_pc_eq {s : State} {a : Word} (h : s.pc = a) : s.setPc a = s := by subst h; rfl

/-- The word at the last address of memory has no second byte: a STEP there faults on 0x1000 (R53, R195). -/
theorem step_of_pc_eq_last {s : State} (h : s.pc = 0xFFF) : step s = .fault (.outOfRange .mem 0x1000) := by
  have hr : ¬ RangeExists s.pc 2 := by rw [h]; decide
  rw [step, fetchAndRun, guardRange_of_not_exists (by decide) hr, h]
  rfl

/-! ### JP addr, SE Vx, byte and SNE Vx, byte -/

theorem exec_jp (nnn : Addr) (s : State) : exec (.jp nnn) s = .next (s.setPc (nnn.setWidth 16)) := rfl

theorem exec_seByte (x : Nibble) (nn : Byte) (s : State) :
    exec (.seByte x nn) s = .next (s.skipIf (s.readV x == nn)) := rfl

theorem exec_sneByte (x : Nibble) (nn : Byte) (s : State) :
    exec (.sneByte x nn) s = .next (s.skipIf (s.readV x != nn)) := rfl

/-- An instruction that answers `skipIf` advances by 4 where its condition holds and by 2 where it fails, and writes
nothing but `pc`. -/
theorem exec_of_skipIf {i : Instr} {s : State} {c : Bool} (h : exec i s = .next (s.skipIf c)) {skips stays : Prop}
    (hskip : skips → c = true) (hstay : stays → c = false) :
    ∃ t, exec i s = .next t ∧ (skips → t.pc = s.pc + 4) ∧ (stays → t.pc = s.pc + 2) ∧ SameExcept [.pc] s t := by
  refine ⟨s.skipIf c, h, fun hc => ?_, fun hc => ?_, sameExcept_setPc s _⟩
  · simp [hskip hc]
  · simp [hstay hc]

/-- Settles O9: a jump is a write of `pc` alone, so at its own address it rewrites what `pc` holds; and at 0xFFF the
next fetch lacks its second byte. -/
theorem jumpSetsThePc : Obligations.JumpSetsThePc :=
  ⟨decodesTo_jp,
    fun nnn s => ⟨_, exec_jp nnn s, State.setPc_pc s _, sameExcept_setPc s _, setPc_of_pc_eq⟩,
    fun s => ⟨_, exec_jp 0xFFF s, step_of_pc_eq_last (State.setPc_pc s _)⟩⟩

/-- Settles O14: both instructions are a `skipIf`, on the comparison of Vx with NN and on its negation. -/
theorem immediateSkipsCompareVxWithNn : Obligations.ImmediateSkipsCompareVxWithNn :=
  ⟨decodesTo_seByte, decodesTo_sneByte,
    fun x nn s => exec_of_skipIf (exec_seByte x nn s) beq_iff_eq.mpr beq_eq_false_iff_ne.mpr,
    fun x nn s => exec_of_skipIf (exec_sneByte x nn s) bne_iff_ne.mpr bne_eq_false_iff_eq.mpr⟩

end Sys2Proof.Machine

/-! PROOFS. Register and ALU instructions (R120 to R127). Each answers one of two updates followed by `advance`: a register
written alone, or the flag and then the result. So one lemma per update says what the instruction leaves, and what is left
for each instruction is its row of the opcode map and the arithmetic of its result and flag. -/

namespace Sys2Proof.Machine

/-! ### Rows that decode further by the low nibble -/

/-- A row of family 8 fixes the family nibble and the low nibble, and decodes as the family does at that low nibble. -/
theorem decodesTo_family8 {pattern : Word} {instr : Word → Instr} (h8 : fieldOp pattern = 0x8#4)
    (hd : ∀ w, fieldN w = fieldN pattern → decodeFamily8 w = .ok (instr w)) : DecodesTo 0xF00F pattern instr := by
  intro w h
  rw [decode_family8 ((fieldOp_of_mask h rfl).trans h8)]
  exact hd w (fieldN_of_mask h rfl)

theorem decodesTo_ldByte : DecodesTo 0xF000 0x6000 (fun w => .ldByte (fieldX w) (fieldNN w)) :=
  decodesTo_of_fieldOp rfl fun w (h : fieldOp w = 0x6#4) => by simp only [decode, h]

theorem decodesTo_addByte : DecodesTo 0xF000 0x7000 (fun w => .addByte (fieldX w) (fieldNN w)) :=
  decodesTo_of_fieldOp rfl fun w (h : fieldOp w = 0x7#4) => by simp only [decode, h]

theorem decodesTo_ldReg : DecodesTo 0xF00F 0x8000 (fun w => .ldReg (fieldX w) (fieldY w)) :=
  decodesTo_family8 rfl fun w (h : fieldN w = 0x0#4) => by simp only [decodeFamily8, h]

theorem decodesTo_orReg : DecodesTo 0xF00F 0x8001 (fun w => .orReg (fieldX w) (fieldY w)) :=
  decodesTo_family8 rfl fun w (h : fieldN w = 0x1#4) => by simp only [decodeFamily8, h]

theorem decodesTo_andReg : DecodesTo 0xF00F 0x8002 (fun w => .andReg (fieldX w) (fieldY w)) :=
  decodesTo_family8 rfl fun w (h : fieldN w = 0x2#4) => by simp only [decodeFamily8, h]

theorem decodesTo_xorReg : DecodesTo 0xF00F 0x8003 (fun w => .xorReg (fieldX w) (fieldY w)) :=
  decodesTo_family8 rfl fun w (h : fieldN w = 0x3#4) => by simp only [decodeFamily8, h]

/-! ### Registers and the program counter written -/

/-- Writing registers and `pc` leaves every other piece of state as it was. -/
theorem sameExcept_v_pc (s : State) (v : Vector Byte 16) (a : Word) :
    SameExcept [.v, .pc] s { s with v := v, pc := a } := by
  intro p hp
  cases p with
  | v | pc => simp at hp
  | mem => exact fun _ => rfl
  | _ => rfl

/-- An instruction that answers `setV` advances by 2 and writes nothing but Vx and `pc`. -/
theorem exec_of_setV {i : Instr} {s : State} {x : Nibble} {b : Byte} (h : exec i s = .next (s.setV x b).advance) :
    ∃ t, exec i s = .next t ∧ t.readV x = b ∧ t.pc = s.pc + 2 ∧ OtherRegsSame x s t ∧ SameExcept [.v, .pc] s t := by
  refine ⟨_, h, State.readV_setV_self s x b, rfl, fun y hy => ?_, sameExcept_v_pc s _ _⟩
  rw [State.readV_advance, State.readV_setV, if_neg hy]

/-- An instruction that answers `setFlagThenV` advances by 2 and writes the result to Vx, the flag to VF unless that is
Vx, and nothing else but `pc` (R121). -/
theorem exec_of_setFlagThenV {i : Instr} {s : State} {x : Nibble} {flag result : Byte}
    (h : exec i s = .next (s.setFlagThenV flag x result).advance) :
    ∃ t, exec i s = .next t ∧ t.readV x = result ∧ (x ≠ 0xF → t.readV 0xF = flag) ∧
      (∀ r, r ≠ x → r ≠ 0xF → t.readV r = s.readV r) ∧ t.pc = s.pc + 2 ∧ SameExcept [.v, .pc] s t :=
  ⟨_, h, State.readV_setFlagThenV_self s flag x result, State.readV_setFlagThenV_vf s flag result,
    fun _ hr hf => State.readV_setFlagThenV_other s flag result hr hf, rfl, sameExcept_v_pc s _ _⟩

/-! ### The answer of each instruction -/

section
variable (x y : Nibble) (nn : Byte) (s : State)

theorem exec_ldByte : exec (.ldByte x nn) s = .next (s.setV x nn).advance := rfl

theorem exec_addByte : exec (.addByte x nn) s = .next (s.setV x (s.readV x + nn)).advance := rfl

theorem exec_ldReg : exec (.ldReg x y) s = .next (s.setV x (s.readV y)).advance := rfl

theorem exec_orReg : exec (.orReg x y) s = .next (s.setV x (s.readV x ||| s.readV y)).advance := rfl

theorem exec_andReg : exec (.andReg x y) s = .next (s.setV x (s.readV x &&& s.readV y)).advance := rfl

theorem exec_xorReg : exec (.xorReg x y) s = .next (s.setV x (s.readV x ^^^ s.readV y)).advance := rfl

theorem exec_addReg : exec (.addReg x y) s =
    .next (s.setFlagThenV (carryFlag (s.readV x) (s.readV y)) x (s.readV x + s.readV y)).advance := rfl

theorem exec_subReg : exec (.subReg x y) s =
    .next (s.setFlagThenV (notBorrowFlag (s.readV x) (s.readV y)) x (s.readV x - s.readV y)).advance := rfl

theorem exec_subnReg : exec (.subnReg x y) s =
    .next (s.setFlagThenV (notBorrowFlag (s.readV y) (s.readV x)) x (s.readV y - s.readV x)).advance := rfl

theorem exec_shrReg : exec (.shrReg x y) s =
    .next (s.setFlagThenV (lowBitFlag (s.readV x)) x (s.readV y >>> 1)).advance := rfl

theorem exec_shlReg : exec (.shlReg x y) s =
    .next (s.setFlagThenV (highBitFlag (s.readV x)) x (s.readV y <<< 1)).advance := rfl

end

/-! ### Flags and results as numbers (R120) -/

section
variable (a b : Byte)

theorem carryFlag_eq_ite : carryFlag a b = if a.toNat + b.toNat > 255 then 1 else 0 := by
  simp only [carryFlag, flagByte, decide_eq_true_eq]

theorem notBorrowFlag_eq_ite : notBorrowFlag a b = if a.toNat < b.toNat then 0 else 1 := by
  simp only [notBorrowFlag, flagByte, decide_eq_true_eq, ite_not]

theorem toNat_flagByte (c : Bool) : (flagByte c).toNat = c.toNat := by cases c <;> rfl

/-- The flag that holds bit `k` of a byte is that binary digit. -/
theorem toNat_flagByte_getLsbD (k : Nat) : (flagByte (a.getLsbD k)).toNat = a.toNat / 2 ^ k % 2 :=
  (toNat_flagByte _).trans (Nat.toNat_testBit a.toNat k)

theorem toNat_lowBitFlag : (lowBitFlag a).toNat = a.toNat % 2 := by
  rw [lowBitFlag, toNat_flagByte_getLsbD, Nat.pow_zero, Nat.div_one]

/-- Bit 7 is the top bit: a byte divided by 128 has no other digit. -/
theorem toNat_highBitFlag : (highBitFlag a).toNat = a.toNat / 128 := by
  rw [highBitFlag, toNat_flagByte_getLsbD]
  exact Nat.mod_eq_of_lt (by have := a.isLt; omega)

theorem toNat_sub_byte : (a - b).toNat = (a.toNat + 256 - b.toNat) % 256 := by bv_omega

theorem toNat_shiftRight_one : (a >>> 1).toNat = a.toNat / 2 := by
  rw [BitVec.toNat_ushiftRight, Nat.shiftRight_one]

theorem toNat_shiftLeft_one : (a <<< 1).toNat = a.toNat * 2 % 256 := by
  rw [BitVec.toNat_shiftLeft, Nat.shiftLeft_eq, Nat.pow_one]

/-- A sum of bytes is the byte of the sum modulo 256. -/
theorem add_eq_ofNat_mod : a + b = BitVec.ofNat 8 ((a.toNat + b.toNat) % 256) := by
  apply BitVec.eq_of_toNat_eq
  rw [BitVec.toNat_add, BitVec.toNat_ofNat, Nat.mod_mod]

end

/-! ### The statements -/

/-- Settles O20: the five operations with a flag leave the flag in VF and the result in Vx, which are apart for X other
than F; the rest is the flag and the result read as numbers. -/
theorem flagTruthTables : Obligations.FlagTruthTables := by
  refine ⟨fun x y s hx _ => ⟨?add, ?sub, ?subn, ?shr, ?shl⟩, fun x nn s => ?addByte⟩
  case add =>
    obtain ⟨t, ht, hresult, hflag, -⟩ := exec_of_setFlagThenV (exec_addReg x y s)
    exact ⟨t, ht, by rw [hflag hx, carryFlag_eq_ite], by rw [hresult, BitVec.toNat_add]⟩
  case sub =>
    obtain ⟨t, ht, hresult, hflag, -⟩ := exec_of_setFlagThenV (exec_subReg x y s)
    exact ⟨t, ht, by rw [hflag hx, notBorrowFlag_eq_ite], by rw [hresult, toNat_sub_byte]⟩
  case subn =>
    obtain ⟨t, ht, hresult, hflag, -⟩ := exec_of_setFlagThenV (exec_subnReg x y s)
    exact ⟨t, ht, by rw [hflag hx, notBorrowFlag_eq_ite], by rw [hresult, toNat_sub_byte]⟩
  case shr =>
    obtain ⟨t, ht, hresult, hflag, -⟩ := exec_of_setFlagThenV (exec_shrReg x y s)
    exact ⟨t, ht, by rw [hflag hx, toNat_lowBitFlag], by rw [hresult, toNat_shiftRight_one]⟩
  case shl =>
    obtain ⟨t, ht, hresult, hflag, -⟩ := exec_of_setFlagThenV (exec_shlReg x y s)
    exact ⟨t, ht, by rw [hflag hx, toNat_highBitFlag], by rw [hresult, toNat_shiftLeft_one]⟩
  case addByte =>
    obtain ⟨t, ht, hresult, -, hother, -⟩ := exec_of_setV (exec_addByte x nn s)
    exact ⟨t, ht, by rw [hresult, BitVec.toNat_add], fun hx => hother 0xF hx.symm⟩

/-- Settles O16: the instruction is a `setV` of NN. -/
theorem loadImmediateSetsVx : Obligations.LoadImmediateSetsVx :=
  ⟨decodesTo_ldByte, fun x nn s => exec_of_setV (exec_ldByte x nn s)⟩

/-- Settles O17: the instruction is a `setV` of the sum of two bytes, which wraps modulo 256. -/
theorem addImmediateWrapsWithoutFlag : Obligations.AddImmediateWrapsWithoutFlag := by
  refine ⟨decodesTo_addByte, fun x nn s => ?_⟩
  rw [← add_eq_ofNat_mod]
  exact exec_of_setV (exec_addByte x nn s)

/-- Settles O18: the instruction is a `setV` of the value of Vy. -/
theorem copyRegisterSetsVx : Obligations.CopyRegisterSetsVx :=
  ⟨decodesTo_ldReg, fun x y s => exec_of_setV (exec_ldReg x y s)⟩

/-- Settles O19: each of the three is a `setV` of the bitwise combination of Vx and Vy. -/
theorem logicOperationsKeepTheFlag : Obligations.LogicOperationsKeepTheFlag :=
  ⟨decodesTo_orReg, decodesTo_andReg, decodesTo_xorReg,
    fun x y s => exec_of_setV (exec_orReg x y s),
    fun x y s => exec_of_setV (exec_andReg x y s),
    fun x y s => exec_of_setV (exec_xorReg x y s)⟩

end Sys2Proof.Machine

/-! PROOFS. The index register (R141, R143, R145). LD I and LD F answer one update, `setI` followed by `advance`; the dump
and the load answer behind one guard. So one lemma per shape says what the instruction leaves, and what is left is the new
index as a number: a sum of existing addresses stays below the 16-bit wrap. -/

namespace Sys2Proof.Machine

/-! ### Rows of the opcode map -/

/-- A row of family F fixes the family nibble and the low byte, and decodes as the family does at that low byte. -/
theorem decodesTo_familyF {pattern : Word} {instr : Word → Instr} (hF : fieldOp pattern = 0xF#4)
    (hd : ∀ w, fieldNN w = fieldNN pattern → decodeFamilyF w = .ok (instr w)) : DecodesTo 0xF0FF pattern instr := by
  intro w h
  rw [decode_familyF ((fieldOp_of_mask h rfl).trans hF)]
  exact hd w (fieldNN_of_mask h rfl)

theorem decodesTo_ldI : DecodesTo 0xF000 0xA000 (fun w => .ldI (fieldNNN w)) :=
  decodesTo_of_fieldOp rfl fun w (h : fieldOp w = 0xA#4) => by simp only [decode, h]

theorem decodesTo_ldF : DecodesTo 0xF0FF 0xF029 (fun w => .ldF (fieldX w)) :=
  decodesTo_familyF rfl fun w (h : fieldNN w = 0x29#8) => by simp only [decodeFamilyF, h]

/-! ### The index register and the program counter written -/

/-- Writing `I` and `pc` leaves every other piece of state as it was. -/
theorem sameExcept_i_pc (s : State) (i a : Word) : SameExcept [.i, .pc] s { s with i := i, pc := a } := by
  intro p hp
  cases p with
  | i | pc => simp at hp
  | v | mem => exact fun _ => rfl
  | _ => rfl

/-- The new index of a dump or load whose addresses exist is at most 4096, so it is the sum without a wrap (R145). -/
theorem toNat_indexAfter {base : Word} {x : Nibble} (h : RangeExists base (dumpCount x)) :
    (indexAfter base x).toNat = base.toNat + x.toNat + 1 := by
  simp only [RangeExists, dumpCount, Config.memSize] at h
  rw [indexAfter, dumpCount, BitVec.toNat_add, BitVec.toNat_ofNat]
  omega

theorem toNat_fontBase : Config.fontBase.toNat = 0 := rfl

/-- Five times a nibble, added to `FONT_BASE`, fits 16 bits (R143). -/
theorem toNat_glyphAddress (b : Byte) :
    (glyphAddress b).toNat = Config.fontBase.toNat + 5 * (b.toNat % 16) := by
  have hnibble : (b.extractLsb' 0 4).toNat = b.toNat % 16 := by rw [BitVec.extractLsb'_toNat, Nat.shiftRight_zero]
  rw [glyphAddress, toNat_fontBase, BitVec.toNat_add, BitVec.toNat_mul, BitVec.toNat_setWidth, hnibble]
  show (0 + b.toNat % 16 % 65536 * 5 % 65536) % 65536 = 0 + 5 * (b.toNat % 16)
  omega

/-! ### The answer of each instruction -/

section
variable (nnn : Addr) (x : Nibble) (s : State)

theorem exec_ldI : exec (.ldI nnn) s = .next (s.setI (nnn.setWidth 16)).advance := rfl

theorem exec_ldF : exec (.ldF x) s = .next (s.setI (glyphAddress (s.readV x))).advance := rfl

theorem exec_ldMemVx : exec (.ldMemVx x) s = guardRange s.i (dumpCount x)
    (.next ((s.setMem (Memory.store s.mem s.i (dumpBytes s x))).setI (indexAfter s.i x)).advance) := rfl

theorem exec_ldVxMem : exec (.ldVxMem x) s = guardRange s.i (dumpCount x)
    (.next (({ s with v := loadRegs s.mem s.i s.v (dumpCount x) } : State).setI (indexAfter s.i x)).advance) := rfl

end

/-- A dump or a load completes only where its addresses exist, and then leaves the index after them. -/
theorem exec_dump_or_load_next {x : Nibble} {s t : State}
    (h : exec (.ldMemVx x) s = .next t ∨ exec (.ldVxMem x) s = .next t) :
    RangeExists s.i (dumpCount x) ∧ t.i = indexAfter s.i x := by
  rw [exec_ldMemVx, exec_ldVxMem] at h
  obtain h | h := h
  all_goals
    obtain ⟨hrange, ⟨⟩⟩ := guardRange_next h
    exact ⟨hrange.resolve_left (Nat.succ_ne_zero _), rfl⟩

/-! ### The statements -/

/-- Settles O33: the guard lets a dump or a load complete exactly where its addresses exist, and there the new index is
the sum without a wrap. -/
theorem dumpAndLoadPostIncrementNeverWraps : Obligations.DumpAndLoadPostIncrementNeverWraps := by
  refine fun x s => ⟨fun t h => ?_, fun (hrange : RangeExists s.i (dumpCount x)) => ?_⟩
  · obtain ⟨hrange, hi⟩ := exec_dump_or_load_next h
    have hsum : t.i.toNat = s.i.toNat + x.toNat + 1 := by rw [hi, toNat_indexAfter hrange]
    exact ⟨hi, hsum, hsum.trans_le hrange⟩
  · rw [exec_ldMemVx, exec_ldVxMem, guardRange_of_exists hrange, guardRange_of_exists hrange]
    exact ⟨⟨_, rfl⟩, ⟨_, rfl⟩⟩

/-- Settles O27: the instruction is a `setI` of NNN, whose 12 bits keep it below 4096. -/
theorem setIndexLoadsTheAddress : Obligations.SetIndexLoadsTheAddress := by
  refine ⟨decodesTo_ldI, fun nnn s => ⟨_, exec_ldI nnn s, rfl, ?_, rfl, sameExcept_i_pc s _ _⟩⟩
  rw [State.advance_i, State.setI_i, BitVec.toNat_setWidth_of_le (by decide)]
  exact nnn.isLt

/-- Settles O29: the instruction is a `setI` of the glyph address, and the last of the 16 glyphs ends at 80. -/
theorem glyphAddressIsFiveTimesTheLowNibble : Obligations.GlyphAddressIsFiveTimesTheLowNibble := by
  refine ⟨decodesTo_ldF, fun x s => ⟨_, exec_ldF x s, toNat_glyphAddress _, ?_, rfl, sameExcept_i_pc s _ _⟩⟩
  rw [State.advance_i, State.setI_i, toNat_glyphAddress, toNat_fontBase]
  show 0 + 5 * ((s.readV x).toNat % 16) + 5 ≤ 80
  omega

end Sys2Proof.Machine

/-! PROOFS. Clearing the screen and reading it (R156, R160). CLS writes FB, CHG and `pc` alone, FBREAD writes CHG alone;
that no STEP and no TICK clears CHG is the law of the change flag above (R30). -/

namespace Sys2Proof.Machine

/-- A row whose mask is the whole word decodes as its one word does. -/
theorem decodesTo_of_whole_word {pattern : Word} {i : Instr} (hd : decode pattern = .ok i) :
    DecodesTo 0xFFFF pattern (fun _ => i) := by
  intro w h
  have hw : w = pattern := BitVec.and_allOnes.symm.trans h
  rw [hw, hd]

/-- A blank framebuffer has every pixel 0, by row-major number as by row and column. -/
theorem pixel_blank (idx : Fin (Config.fbWidth * Config.fbHeight)) : Framebuffer.pixel Framebuffer.blank idx = false :=
  Framebuffer.lit_blank _ _

/-- Writing the display and `pc` leaves every other piece of state as it was. -/
theorem sameExcept_fb_chg_pc (s : State) (fb : Framebuffer) (c : Bool) (a : Word) :
    SameExcept [.fb, .chg, .pc] s { s with fb := fb, chg := c, pc := a } := by
  intro p hp
  cases p with
  | fb | chg | pc => simp at hp
  | v | mem => exact fun _ => rfl
  | _ => rfl

/-- Clearing CHG leaves every other piece of state as it was, FB too. -/
theorem sameExcept_clearChg (s : State) : SameExcept [.chg] s s.clearChg := by
  intro p hp
  cases p with
  | chg => simp at hp
  | v | mem => exact fun _ => rfl
  | _ => rfl

theorem exec_cls (s : State) : exec .cls s = .next (s.setFb Framebuffer.blank).advance := rfl

theorem handle_fbread (s : State) : s.handle .fbread = (s.clearChg, .frame s.chg s.fb) := rfl

/-- Settles O36: CLS answers one write of the blank framebuffer, which sets CHG, and advances. -/
theorem clearScreenZeroesEveryPixel : Obligations.ClearScreenZeroesEveryPixel :=
  ⟨decodesTo_of_whole_word rfl,
    fun s => ⟨_, exec_cls s, pixel_blank, exec_sets_chg (.inl rfl) (exec_cls s), rfl, sameExcept_fb_chg_pc s _ _ _⟩⟩

/-- Settles O39: the reply holds CHG and FB of the state before and CHG alone is cleared, so a second reply holds
CHG = 0 and the same FB; STEP and TICK are among the events that keep CHG set. -/
theorem fbReadReturnsAndClearsTheChangeFlag : Obligations.FbReadReturnsAndClearsTheChangeFlag := by
  intro s
  rw [handle_fbread]
  refine ⟨rfl, State.clearChg_chg s, sameExcept_clearChg s, ?_, fun hs => ⟨?_, ?_⟩⟩
  · rw [handle_fbread, State.clearChg_chg, State.clearChg_fb]
  · exact handle_keeps_chg_set nofun nofun hs
  · exact handle_keeps_chg_set nofun nofun hs

end Sys2Proof.Machine

/-! PROOFS. The timer instructions (R170 to R172). LD Vx, DT is a `setV`; LD DT, Vx and LD ST, Vx answer one write of a
timer followed by `advance`, and what a TICK makes of it is `countDown` of the value written (R173). That no instruction
reads ST is one case split over the instructions: each but LD ST, Vx commutes with replacing ST. -/

namespace Sys2Proof.Machine

/-! ### Rows of the opcode map -/

theorem decodesTo_ldVxDt : DecodesTo 0xF0FF 0xF007 (fun w => .ldVxDt (fieldX w)) :=
  decodesTo_familyF rfl fun w (h : fieldNN w = 0x07#8) => by simp only [decodeFamilyF, h]

theorem decodesTo_ldDtVx : DecodesTo 0xF0FF 0xF015 (fun w => .ldDtVx (fieldX w)) :=
  decodesTo_familyF rfl fun w (h : fieldNN w = 0x15#8) => by simp only [decodeFamilyF, h]

theorem decodesTo_ldStVx : DecodesTo 0xF0FF 0xF018 (fun w => .ldStVx (fieldX w)) :=
  decodesTo_familyF rfl fun w (h : fieldNN w = 0x18#8) => by simp only [decodeFamilyF, h]

/-! ### A timer and the program counter written -/

/-- Writing DT and `pc` leaves every other piece of state as it was. -/
theorem sameExcept_dt_pc (s : State) (d : Byte) (a : Word) : SameExcept [.dt, .pc] s { s with dt := d, pc := a } := by
  intro p hp
  cases p with
  | dt | pc => simp at hp
  | v | mem => exact fun _ => rfl
  | _ => rfl

/-- Writing ST and `pc` leaves every other piece of state as it was. -/
theorem sameExcept_st_pc (s : State) (b : Byte) (a : Word) : SameExcept [.st, .pc] s { s with st := b, pc := a } := by
  intro p hp
  cases p with
  | st | pc => simp at hp
  | v | mem => exact fun _ => rfl
  | _ => rfl

/-! ### Counting down, and the tone -/

/-- A count-down step is the subtraction floored at 0 (R173). -/
theorem toNat_countDown (t : Byte) : (countDown t).toNat = t.toNat - 1 := by
  rw [countDown]
  split
  case isTrue h => rw [h]; rfl
  case isFalse h => bv_omega

/-- Only 2 counts down to 1: 0 stays where it is. -/
theorem countDown_eq_one {t : Byte} : countDown t = 1 ↔ t = 2 := by
  rw [← BitVec.toNat_inj, toNat_countDown]
  bv_omega

theorem tone_eq_true {s : State} : s.tone = true ↔ s.st = 1 := beq_iff_eq

theorem handle_tick (s : State) : s.handle .tick = (s.tick, .tone s.tone) := rfl

/-! ### The answer of each instruction -/

section
variable (x : Nibble) (s : State)

theorem exec_ldVxDt : exec (.ldVxDt x) s = .next (s.setV x s.dt).advance := rfl

theorem exec_ldDtVx : exec (.ldDtVx x) s = .next (s.setDt (s.readV x)).advance := rfl

theorem exec_ldStVx : exec (.ldStVx x) s = .next (s.setSt (s.readV x)).advance := rfl

end

/-! ### ST replaced -/

section
variable (s : State) (b : Byte)

theorem pushAndGo_setSt (target : Word) : pushAndGo (s.setSt b) target = mapNext (·.setSt b) (pushAndGo s target) := by
  unfold pushAndGo
  rw [apply_dite (mapNext _)]
  rfl

theorem popAndReturn_setSt : popAndReturn (s.setSt b) = mapNext (·.setSt b) (popAndReturn s) := by
  unfold popAndReturn
  rw [apply_ite (mapNext _), apply_dite (mapNext _)]
  rfl

theorem keySkip_setSt (x : Nibble) (level : Bool) :
    keySkip x level (s.setSt b) = mapNext (·.setSt b) (keySkip x level s) := by
  unfold keySkip
  rw [apply_ite (mapNext _)]
  rfl

theorem execLdVxK_setSt (x : Nibble) : execLdVxK x (s.setSt b) = mapNext (·.setSt b) (execLdVxK x s) := by
  cases h : lowestKey s with
  | some k => rw [execLdVxK_of_some h, execLdVxK_of_some (s := s.setSt b) h]; rfl
  | none => rw [execLdVxK_of_none h, execLdVxK_of_none (s := s.setSt b) h]; rfl

/-- An instruction other than LD ST, Vx neither reads nor writes ST. -/
theorem exec_setSt {i : Instr} (hi : ∀ x, i ≠ .ldStVx x) : exec i (s.setSt b) = mapNext (·.setSt b) (exec i s) := by
  cases i with
  | ldStVx x => exact absurd rfl (hi x)
  | ret => exact popAndReturn_setSt s b
  | call nnn => exact pushAndGo_setSt s b _
  | skp x => exact keySkip_setSt s b x true
  | sknp x => exact keySkip_setSt s b x false
  | ldVxK x => exact execLdVxK_setSt s b x
  | drw x y n | ldB x | ldMemVx x | ldVxMem x => symm; exact mapNext_guardRange ..
  | _ => rfl

/-- LD ST, Vx overwrites ST, so it answers the same whatever ST was. -/
theorem exec_ldStVx_setSt (x : Nibble) : exec (.ldStVx x) (s.setSt b) = exec (.ldStVx x) s := rfl

end

/-! ### The statements -/

/-- Settles O43: the instruction is a `setSt` of the value of Vx, which a TICK counts down to 1 exactly from 2; every
other instruction commutes with replacing ST. -/
theorem setSoundTimerWritesSt : Obligations.SetSoundTimerWritesSt := by
  refine ⟨decodesTo_ldStVx, fun x s => ?_, fun i s b hi => exec_setSt s b hi, fun x s b => exec_ldStVx_setSt s b x⟩
  refine ⟨_, exec_ldStVx x s, rfl, rfl, sameExcept_st_pc s _ _, tone_eq_true, ?_⟩
  rw [handle_tick, tone_eq_true, State.tick_st]
  exact countDown_eq_one

/-- Settles O41: the instruction is a `setV` of DT. -/
theorem loadDelayTimerReadsDt : Obligations.LoadDelayTimerReadsDt := by
  refine ⟨decodesTo_ldVxDt, fun x s => ?_⟩
  obtain ⟨t, ht, hx, hpc, hother, hsame⟩ := exec_of_setV (exec_ldVxDt x s)
  exact ⟨t, ht, hx, hsame .dt (by decide), hpc, hother, hsame⟩

/-- Settles O42: the instruction is a `setDt` of the value of Vx, which a TICK counts down once. -/
theorem setDelayTimerWritesDt : Obligations.SetDelayTimerWritesDt :=
  ⟨decodesTo_ldDtVx, fun x s => ⟨_, exec_ldDtVx x s, rfl, rfl, sameExcept_dt_pc s _ _, toNat_countDown _⟩⟩

end Sys2Proof.Machine

/-! PROOFS. The keypad event (R208). KEYSET answers one `setKey`, which completes in every state, so what it leaves is
what `setKey` leaves: the flag read back, the other flags, and every piece of state but the keypad. -/

namespace Sys2Proof.Machine

/-- Writing a key flag leaves every piece of state but the keypad as it was. -/
theorem sameExcept_setKey (s : State) (k : Nibble) (b : Bool) : SameExcept [.keys] s (s.setKey k b) := by
  intro p hp
  cases p with
  | keys => simp at hp
  | v | mem => exact fun _ => rfl
  | _ => rfl

/-- Writing the value a key flag already has changes nothing. -/
theorem setKey_readKey_self (s : State) (k : Nibble) : s.setKey k (s.readKey k) = s := by
  rw [State.setKey, State.readKey, Vector.set_getElem_self]

theorem handle_keyset (s : State) (k : Nibble) (b : Bool) : s.handle (.keyset k b) = (s.setKey k b, .done) := rfl

/-- Settles O48: KEYSET answers one `setKey` and completes. -/
theorem keysetWritesOneFlag : Obligations.KeysetWritesOneFlag := by
  intro k b s
  rw [handle_keyset]
  refine ⟨rfl, ?_, fun j hj => ?_, sameExcept_setKey s k b, fun hb => ?_⟩
  · rw [State.readKey_setKey, if_pos rfl]
  · rw [State.readKey_setKey, if_neg hj]
  · rw [← hb]
    exact setKey_readKey_self s k

end Sys2Proof.Machine

/-! PROOFS. What a completed instruction writes (R20, R25, R34) and where it faults (R53, R190 to R192). The operations
that can fault each say once when they answer a next state and when a fault; every other instruction answers an update of
the state outright. So each law is one case split over the instructions, and the answer itself shows what is written. -/

namespace Sys2Proof.Machine

/-! ### Frames read off the answer -/

/-- `s` with the listed pieces of state taken from `t`. -/
def State.taking (parts : List Part) (s t : State) : State where
  v := if .v ∈ parts then t.v else s.v
  i := if .i ∈ parts then t.i else s.i
  pc := if .pc ∈ parts then t.pc else s.pc
  sp := if .sp ∈ parts then t.sp else s.sp
  stack := if .stack ∈ parts then t.stack else s.stack
  dt := if .dt ∈ parts then t.dt else s.dt
  st := if .st ∈ parts then t.st else s.st
  keys := if .keys ∈ parts then t.keys else s.keys
  fb := if .fb ∈ parts then t.fb else s.fb
  chg := if .chg ∈ parts then t.chg else s.chg
  mem := if .mem ∈ parts then t.mem else s.mem
  rndDraws := if .rndDraws ∈ parts then t.rndDraws else s.rndDraws

/-- A state that takes nothing but the listed pieces from elsewhere is the same but for these. For a concrete update of
`s` the hypothesis is closed by `rfl`. -/
theorem sameExcept_of_taking {parts : List Part} {s t : State} (h : t = s.taking parts t) : SameExcept parts s t := by
  intro p hp
  cases p with
  | v => exact State.readV_congr (by rw [h]; exact if_neg hp)
  | mem => exact fun a => by rw [h]; exact congrArg (Memory.read · a) (if_neg hp)
  | _ => rw [h]; exact if_neg hp

/-! ### The operations that can fault -/

theorem pushAndGo_next {s t : State} {target : Word} (h : pushAndGo s target = .next t) :
    ∃ hlt : s.sp.toNat < 16, t = { s with stack := s.stack.set s.sp.toNat s.pc hlt, sp := s.sp + 1, pc := target } := by
  unfold pushAndGo at h
  split at h
  case isTrue hlt => cases h; exact ⟨hlt, rfl⟩
  case isFalse => cases h

theorem pushAndGo_fault {s : State} {target : Word} {f : Fault} :
    pushAndGo s target = .fault f ↔ 16 ≤ s.sp.toNat ∧ f = .outOfRange .stackOverflow (s.sp.setWidth 16) := by
  unfold pushAndGo raise
  split
  case isTrue hlt => simp [hlt]
  case isFalse hge => simp [Nat.not_lt.mp hge, eq_comm]

theorem pushAndGo_ne_refused {s : State} {target : Word} {r : Refusal} : pushAndGo s target ≠ .refused r := by
  unfold pushAndGo raise
  split <;> nofun

theorem popAndReturn_next {s t : State} (h : popAndReturn s = .next t) :
    0 < s.sp.toNat ∧ ∃ hlt : s.sp.toNat - 1 < 16, t = { s with sp := s.sp - 1, pc := s.stack[s.sp.toNat - 1] + 2 } := by
  unfold popAndReturn at h
  split at h
  case isTrue => cases h
  case isFalse hne =>
    split at h
    case isTrue hlt => cases h; exact ⟨by bv_omega, hlt, rfl⟩
    case isFalse => cases h

theorem popAndReturn_fault {s : State} {f : Fault} :
    popAndReturn s = .fault f ↔ s.sp = 0 ∧ f = .outOfRange .stackUnderflow 0 ∨
      16 < s.sp.toNat ∧ f = .outOfRange .stackOverflow ((s.sp - 1).setWidth 16) := by
  unfold popAndReturn raise
  split
  case isTrue h0 => simp [h0, eq_comm]
  case isFalse hne =>
    split
    case isTrue hlt =>
      have hle : ¬ 16 < s.sp.toNat := fun h => absurd (show s.sp.toNat - 1 < 16 from hlt) (by omega)
      simp only [hne, hle, reduceCtorEq, false_and, or_self]
    case isFalse hge =>
      have hgt : 16 < s.sp.toNat := by have : ¬ s.sp.toNat - 1 < 16 := hge; omega
      simp only [hne, hgt, Host.Outcome.fault.injEq, false_and, false_or, true_and, eq_comm]

theorem popAndReturn_ne_refused {s : State} {r : Refusal} : popAndReturn s ≠ .refused r := by
  unfold popAndReturn raise
  repeat' split
  all_goals nofun

theorem keySkip_next {x : Nibble} {level : Bool} {s t : State} (h : keySkip x level s = .next t) :
    (s.readV x).toNat ≤ 15 ∧ t = s.skipIf (s.keyOf (s.readV x) == level) := by
  unfold keySkip at h
  split at h
  case isTrue => cases h
  case isFalse hle => cases h; exact ⟨Nat.not_lt.mp hle, rfl⟩

theorem keySkip_fault {x : Nibble} {level : Bool} {s : State} {f : Fault} :
    keySkip x level s = .fault f ↔ 15 < (s.readV x).toNat ∧ f = .outOfRange .key ((s.readV x).setWidth 16) := by
  unfold keySkip raise zextByte
  split
  case isTrue hgt => simp [hgt, eq_comm]
  case isFalse hle => simp [hle]

theorem keySkip_ne_refused {x : Nibble} {level : Bool} {s : State} {r : Refusal} : keySkip x level s ≠ .refused r := by
  unfold keySkip raise
  split <;> nofun

theorem guardRange_fault_iff {base : Word} {n : Nat} {u : State} {f : Fault} :
    guardRange base n (.next u) = .fault f ↔ (0 < n ∧ ¬ RangeExists base n) ∧
      f = .outOfRange .mem (if Config.memSize ≤ base.toNat then base else 0x1000) := by
  by_cases hout : 0 < n ∧ ¬ RangeExists base n
  · rw [guardRange_of_not_exists hout.1 hout.2]
    simp only [hout, Host.Outcome.fault.injEq, not_false_eq_true, and_self, true_and, eq_comm]
  · have hnext : guardRange base n (.next u) = .next u := by
      obtain rfl | hn := Nat.eq_zero_or_pos n
      · exact guardRange_zero base _
      · exact guardRange_of_exists (not_not.mp fun hr => hout ⟨hn, hr⟩) _
    simp only [hnext, hout, reduceCtorEq, false_and]

theorem guardRange_ne_refused {base : Word} {n : Nat} {u : State} {r : Refusal} :
    guardRange base n (.next u) ≠ .refused r := by
  unfold guardRange raise
  split <;> nofun

theorem execLdVxK_next {x : Nibble} {s t : State} (h : execLdVxK x s = .next t) :
    (∃ k, lowestKey s = some k ∧ t = (s.setV x (k.setWidth 8)).advance) ∨ lowestKey s = none ∧ t = s := by
  cases hk : lowestKey s with
  | some k => rw [execLdVxK_of_some hk] at h; cases h; exact .inl ⟨k, rfl, rfl⟩
  | none => rw [execLdVxK_of_none hk] at h; cases h; exact .inr ⟨rfl, rfl⟩

theorem execLdVxK_ne_fault {x : Nibble} {s : State} {f : Fault} : execLdVxK x s ≠ .fault f := by
  unfold execLdVxK
  split <;> nofun

theorem execLdVxK_ne_refused {x : Nibble} {s : State} {r : Refusal} : execLdVxK x s ≠ .refused r := by
  unfold execLdVxK
  split <;> nofun

/-! ### The frame of every instruction -/

/-- Settles O51: the answer of each instruction is an update of just the pieces its row names. -/
theorem instructionsWriteOnlyTheirState : Obligations.InstructionsWriteOnlyTheirState := by
  intro i s t h
  cases i with
  | call nnn => obtain ⟨_, rfl⟩ := pushAndGo_next h; exact sameExcept_of_taking rfl
  | ret => obtain ⟨-, _, rfl⟩ := popAndReturn_next h; exact sameExcept_of_taking rfl
  | skp x | sknp x => obtain ⟨-, rfl⟩ := keySkip_next h; exact sameExcept_of_taking rfl
  | drw x y n | ldB x | ldMemVx x | ldVxMem x =>
    obtain ⟨-, ⟨⟩⟩ := guardRange_next h; exact sameExcept_of_taking rfl
  | ldVxK x => obtain ⟨k, -, rfl⟩ | ⟨-, rfl⟩ := execLdVxK_next h <;> exact sameExcept_of_taking rfl
  | _ => cases h; exact sameExcept_of_taking rfl

/-- The registers `V[0..x]` a load writes are those up to X: every other one is as before (R147). -/
theorem readV_loadRegs (s : State) (x k : Nibble) :
    ({ s with v := loadRegs s.mem s.i s.v (dumpCount x) } : State).readV k =
      if k.toNat ≤ x.toNat then Memory.read s.mem (s.i + BitVec.ofNat 16 k.toNat).toNat else s.readV k := by
  rw [State.readV, getElem_loadRegs _ _ _ _ _ k.isLt]
  simp only [dumpCount, Nat.lt_succ_iff, State.readV]

theorem readV_setV_of_beq (s : State) {x r : Nibble} (b : Byte) (h : (r == x) = false) :
    (s.setV x b).readV r = s.readV r := by rw [State.readV_setV, if_neg (beq_eq_false_iff_ne.mp h)]

theorem skipIf_pc_cases (s : State) (c : Bool) : (s.skipIf c).pc = s.pc + 2 ∨ (s.skipIf c).pc = s.pc + 4 := by
  cases c
  · exact .inl rfl
  · exact .inr rfl

/-- The address a range check reports does not exist. -/
theorem memSize_le_firstOutside (base : Word) :
    Config.memSize ≤ (if Config.memSize ≤ base.toNat then base else 0x1000).toNat := by
  split
  case isTrue h => exact h
  case isFalse => exact Nat.le_refl _

/-- Settles O52: an instruction that writes registers writes them by `setV`, by `setFlagThenV` or by a load; the frame
covers the others. -/
theorem registersChangeOnlyAsDestinations : Obligations.RegistersChangeOnlyAsDestinations := by
  intro i s t r h hr
  cases i with
  | ldByte x _ | addByte x _ | ldReg x _ | orReg x _ | andReg x _ | xorReg x _ | ldVxDt x | rnd x _ =>
    cases h
    exact readV_setV_of_beq s _ hr
  | addReg x y | subReg x y | shrReg x y | subnReg x y | shlReg x y =>
    cases h
    obtain ⟨hx, hf⟩ := Bool.or_eq_false_iff.mp hr
    exact State.readV_setFlagThenV_other s _ _ (beq_eq_false_iff_ne.mp hx) (beq_eq_false_iff_ne.mp hf)
  | ldVxK x =>
    obtain ⟨k, -, rfl⟩ | ⟨-, rfl⟩ := execLdVxK_next h
    · exact readV_setV_of_beq s _ hr
    · rfl
  | drw x y n =>
    obtain ⟨-, ⟨⟩⟩ := guardRange_next h
    exact readV_setV_of_beq (s.setFb _) _ hr
  | ldVxMem x =>
    obtain ⟨-, ⟨⟩⟩ := guardRange_next h
    exact (readV_loadRegs s x r).trans (if_neg (of_decide_eq_false hr))
  | _ => exact instructionsWriteOnlyTheirState _ s t h .v (by simp [partsWritten]) r

/-- Settles O53: the answer of each instruction shows what it leaves in `pc`. -/
theorem programCounterMovesByTheRule : Obligations.ProgramCounterMovesByTheRule := by
  intro i s t h
  cases i with
  | call nnn => obtain ⟨_, rfl⟩ := pushAndGo_next h; rfl
  | ret =>
    obtain ⟨hpos, hlt, rfl⟩ := popAndReturn_next h
    exact ⟨⟨s.sp.toNat - 1, hlt⟩, Nat.sub_add_cancel hpos, rfl⟩
  | skp x | sknp x => obtain ⟨-, rfl⟩ := keySkip_next h; exact skipIf_pc_cases s _
  | seByte x nn | sneByte x nn | seReg x y | sneReg x y => cases h; exact skipIf_pc_cases s _
  | ldVxK x =>
    obtain ⟨k, -, rfl⟩ | ⟨hk, rfl⟩ := execLdVxK_next h
    · exact .inl rfl
    · exact .inr ⟨rfl, lowestKey_none.mp hk⟩
  | drw x y n | ldB x | ldMemVx x | ldVxMem x => obtain ⟨-, ⟨⟩⟩ := guardRange_next h; rfl
  | _ => cases h; rfl

/-- No instruction is without a meaning. -/
theorem exec_ne_refused (i : Instr) (s : State) (r : Refusal) : exec i s ≠ .refused r := by
  cases i with
  | call nnn => exact pushAndGo_ne_refused
  | ret => exact popAndReturn_ne_refused
  | skp x | sknp x => exact keySkip_ne_refused
  | drw x y n | ldB x | ldMemVx x | ldVxMem x => exact guardRange_ne_refused
  | ldVxK x => exact execLdVxK_ne_refused
  | _ => nofun

/-- Settles O54: only the operations that check a bound can fault, each at its own bound. -/
theorem onlyEightInstructionsFaultAndOnlyTheirWay : Obligations.OnlyEightInstructionsFaultAndOnlyTheirWay := by
  refine ⟨exec_ne_refused, fun i s f hsp h => ?_⟩
  cases i with
  | call nnn =>
    obtain ⟨hge, rfl⟩ := pushAndGo_fault.mp h
    have hsp' : s.sp = 16 := BitVec.eq_of_toNat_eq (Nat.le_antisymm hsp hge)
    exact ⟨by rw [hsp']; rfl, hsp'⟩
  | ret =>
    obtain ⟨h0, rfl⟩ | ⟨hgt, -⟩ := popAndReturn_fault.mp h
    · exact ⟨rfl, h0⟩
    · omega
  | skp x | sknp x => exact (keySkip_fault.mp h).symm
  | drw x y n =>
    obtain ⟨⟨hn, -⟩, rfl⟩ := guardRange_fault_iff.mp h
    exact ⟨hn, _, rfl, memSize_le_firstOutside s.i⟩
  | ldB x | ldMemVx x | ldVxMem x =>
    obtain ⟨-, rfl⟩ := guardRange_fault_iff.mp h
    exact ⟨_, rfl, memSize_le_firstOutside s.i⟩
  | ldVxK x => exact execLdVxK_ne_fault h
  | _ => cases h

end Sys2Proof.Machine

/-! PROOFS. The invariant (10_state.md sections 4 and 5). The stack pointer, the stack and the program counter each move by
one of the laws above; memory is written by two instructions, whose stores lie inside it. -/

namespace Sys2Proof.Machine

/-- A completed instruction leaves memory alone or stores bytes at addresses that exist (R53, R140). -/
theorem exec_next_mem {i : Instr} {s t : State} (h : exec i s = .next t) :
    t.mem = s.mem ∨ ∃ bs : List Byte, s.i.toNat + bs.length ≤ Config.memSize ∧ t.mem = Memory.store s.mem s.i bs := by
  cases i with
  | ldB x =>
    obtain ⟨hr, ⟨⟩⟩ := guardRange_next h
    exact .inr ⟨bcdDigits (s.readV x), hr.resolve_left (by decide), rfl⟩
  | ldMemVx x =>
    obtain ⟨hr, ⟨⟩⟩ := guardRange_next h
    refine .inr ⟨dumpBytes s x, ?_, rfl⟩
    rw [length_dumpBytes]
    exact hr.resolve_left (Nat.succ_ne_zero _)
  | call nnn => obtain ⟨_, rfl⟩ := pushAndGo_next h; exact .inl rfl
  | ret => obtain ⟨-, _, rfl⟩ := popAndReturn_next h; exact .inl rfl
  | skp x | sknp x => obtain ⟨-, rfl⟩ := keySkip_next h; exact .inl rfl
  | drw x y n | ldVxMem x => obtain ⟨-, ⟨⟩⟩ := guardRange_next h; exact .inl rfl
  | ldVxK x => obtain ⟨k, -, rfl⟩ | ⟨-, rfl⟩ := execLdVxK_next h <;> exact .inl rfl
  | _ => cases h; exact .inl rfl

theorem exec_keeps_wf {i : Instr} {s t : State} (hwf : Memory.wf s.mem = true) (h : exec i s = .next t) :
    Memory.wf t.mem = true := by
  obtain hm | ⟨bs, hbs, hm⟩ := exec_next_mem h
  · rwa [hm]
  · rw [hm]
    exact Memory.wf_store hwf hbs

/-- Only CALL and RET move the stack pointer; CALL completes below 16 and RET goes down (R100, R102). -/
theorem exec_keeps_sp {i : Instr} {s t : State} (hsp : s.sp.toNat ≤ 16) (h : exec i s = .next t) : t.sp.toNat ≤ 16 := by
  cases i with
  | call nnn =>
    obtain ⟨hlt, rfl⟩ := pushAndGo_next h
    show (s.sp + 1).toNat ≤ 16
    bv_omega
  | ret =>
    obtain ⟨hpos, -, rfl⟩ := popAndReturn_next h
    show (s.sp - 1).toNat ≤ 16
    bv_omega
  | _ =>
    have hsame := instructionsWriteOnlyTheirState _ s t h .sp (by simp [partsWritten])
    rwa [show t.sp = s.sp from hsame]

/-- Only CALL writes a stack entry, and it writes the address it was fetched from (R102). -/
theorem exec_keeps_stack {i : Instr} {s t : State} (hpc : s.pc.toNat ≤ 0x0FFE)
    (hstack : ∀ k : Fin 16, s.stack[k.val].toNat ≤ 0x0FFE) (h : exec i s = .next t) :
    ∀ k : Fin 16, t.stack[k.val].toNat ≤ 0x0FFE := by
  cases i with
  | call nnn =>
    obtain ⟨hlt, rfl⟩ := pushAndGo_next h
    intro k
    simp only [Vector.getElem_set]
    split
    · exact hpc
    · exact hstack k
  | _ =>
    have hsame := instructionsWriteOnlyTheirState _ s t h .stack (by simp [partsWritten])
    rwa [show t.stack = s.stack from hsame]

/-- Nothing that is fetched leads beyond 0x10FE, the largest sum of JP V0, addr (R103). -/
theorem exec_pc_le {i : Instr} {s t : State} (hpc : s.pc.toNat ≤ 0x0FFE)
    (hstack : ∀ k : Fin 16, s.stack[k.val].toNat ≤ 0x0FFE) (h : exec i s = .next t) : t.pc.toNat ≤ 0x10FE := by
  have hmove := programCounterMovesByTheRule i s t h
  cases i with
  | jp nnn | call nnn =>
    have hpc' : t.pc = nnn.setWidth 16 := hmove
    bv_omega
  | jpV0 nnn =>
    have hpc' : t.pc = nnn.setWidth 16 + (s.readV 0).setWidth 16 := hmove
    bv_omega
  | ret =>
    obtain ⟨k, -, hpc'⟩ := hmove
    have hk := hstack k
    bv_omega
  | seByte x nn | sneByte x nn | seReg x y | sneReg x y | skp x | sknp x =>
    obtain hpc' | hpc' : t.pc = s.pc + 2 ∨ t.pc = s.pc + 4 := hmove <;> bv_omega
  | ldVxK x =>
    obtain hpc' | ⟨rfl, -⟩ : t.pc = s.pc + 2 ∨ t = s ∧ _ := hmove
    · bv_omega
    · omega
  | _ =>
    have hpc' : t.pc = s.pc + 2 := hmove
    bv_omega

/-- The invariant over one instruction, fetched where both of its bytes exist. -/
theorem exec_keeps_inv {i : Instr} {s t : State} (hs : Inv s) (hfetch : RangeExists s.pc 2) (h : exec i s = .next t) :
    Inv t := by
  obtain ⟨hwf, hsp, -, hstack⟩ := hs
  have hpc : s.pc.toNat ≤ 0x0FFE := by simp only [RangeExists, Config.memSize] at hfetch; omega
  exact ⟨exec_keeps_wf hwf h, exec_keeps_sp hsp h, exec_pc_le hpc hstack h, exec_keeps_stack hpc hstack h⟩

/-- Settles O58: a STEP that answers a next state executed an instruction fetched inside memory. -/
theorem stepKeepsTheInvariant : Obligations.StepKeepsTheInvariant := by
  intro s t hs h
  obtain ⟨hfetch, i, -, hx⟩ := step_next h
  exact exec_keeps_inv hs hfetch hx

/-- Settles O57: every piece of the reset state is written out. -/
theorem resetMeetsTheInvariant : Obligations.ResetMeetsTheInvariant := by
  unfold Obligations.ResetMeetsTheInvariant
  decide

/-- LOAD writes memory alone, and only bytes that fit it (R207). -/
theorem load_next {s t : State} {bytes : List Byte} (h : s.load bytes = .next t) :
    bytes.length ≤ Config.maxRom ∧ t = s.setMem (Memory.loadAt s.mem Config.progBase bytes) := by
  unfold State.load at h
  split at h
  case isTrue => cases h
  case isFalse hle => cases h; exact ⟨Nat.not_lt.mp hle, rfl⟩

theorem handle_keeps_inv (s : State) (e : Event) (hs : Inv s) : Inv (s.handle e).1 := by
  cases e with
  | reset => exact resetMeetsTheInvariant
  | tick | keyset | fbread => exact hs
  | step => exact settle_keeps hs fun t h => stepKeepsTheInvariant s t hs h
  | load bytes =>
    refine settle_keeps hs fun t h => ?_
    obtain ⟨hlen, rfl⟩ := load_next h
    exact ⟨Memory.wf_loadAt hs.1 (Nat.add_le_of_le_sub' (by decide) hlen), hs.2⟩

/-- Settles O59: every event keeps the invariant, and a reachable state comes from reset by events. -/
theorem everyReachableStateMeetsTheInvariant : Obligations.EveryReachableStateMeetsTheInvariant := by
  refine ⟨handle_keeps_inv, ?_⟩
  rintro s ⟨es, rfl⟩
  exact runEvents_keeps handle_keeps_inv es State.reset resetMeetsTheInvariant

end Sys2Proof.Machine

/-! PROOFS. Runs without RESET and LOAD (R196, R234). TICK, KEYSET and FBREAD write DT, ST, the keypad and CHG alone, and
neither a fetch nor a fault reads any of these. So where a STEP changes nothing, a whole run changes no more than these
four, and what a STEP does at its end is what it did at its start. -/

namespace Sys2Proof.Machine

/-! ### The pieces of state that events without RESET and LOAD write at rest -/

/-- `t` is `s` but for the pieces of state that TICK, KEYSET and FBREAD write. -/
def Polled (s t : State) : Prop := ∃ dt st keys chg, t = { s with dt := dt, st := st, keys := keys, chg := chg }

theorem Polled.refl (s : State) : Polled s s := ⟨_, _, _, _, rfl⟩

theorem Polled.sameExcept {s t : State} (h : Polled s t) : SameExcept [.dt, .st, .keys, .chg] s t := by
  obtain ⟨_, _, _, _, rfl⟩ := h
  exact sameExcept_of_taking rfl

theorem Polled.pc_eq {s t : State} (h : Polled s t) : t.pc = s.pc := by
  obtain ⟨_, _, _, _, rfl⟩ := h
  rfl

theorem Polled.fetchWord_eq {s t : State} (h : Polled s t) : fetchWord t = fetchWord s := by
  obtain ⟨_, _, _, _, rfl⟩ := h
  rfl

theorem Polled.handle {s t : State} (h : Polled s t) (hstep : (t.handle .step).1 = t) {e : Event} (hr : e ≠ .reset)
    (hl : ∀ bytes, e ≠ .load bytes) : Polled s (t.handle e).1 := by
  cases e with
  | reset => exact absurd rfl hr
  | load bytes => exact absurd rfl (hl bytes)
  | step => rwa [hstep]
  | tick | keyset | fbread =>
    obtain ⟨_, _, _, _, rfl⟩ := h
    exact ⟨_, _, _, _, rfl⟩

/-- Where no STEP changes the state, a run without RESET and LOAD writes those four pieces of state at most. -/
theorem polled_runEvents {s : State} (hrest : ∀ t, Polled s t → (t.handle .step).1 = t) {es : List Event}
    (hes : ∀ e ∈ es, e ≠ .reset ∧ ∀ bytes, e ≠ .load bytes) : Polled s (State.runEvents s es).1 :=
  runEvents_keepsOn (P := Polled s) (fun t _ hr hl ht => ht.handle (hrest t ht) hr hl) es s (.refl s) hes

/-! ### A STEP as an event -/

theorem handle_step_of_fault {s : State} {f : Fault} (h : step s = .fault f) : s.handle .step = (s, .fault f) := by
  rw [State.handle, h, State.settle]

theorem handle_step_of_next {s t : State} (h : step s = .next t) : s.handle .step = (t, .done) := by
  rw [State.handle, h, State.settle]

/-- Where a byte of the instruction does not exist, a STEP faults on the lowest address that does not (R195). -/
theorem step_of_not_rangeExists {s : State} (hr : ¬ RangeExists s.pc 2) :
    step s = .fault (.outOfRange .mem (if Config.memSize ≤ s.pc.toNat then s.pc else 0x1000)) := by
  rw [step, fetchAndRun, guardRange_of_not_exists (by decide) hr]

theorem step_of_decode_error {s : State} {e : DecodeError} (hr : RangeExists s.pc 2)
    (h : decode (fetchWord s) = .error e) : step s = .fault (.decodeError (fetchWord s) s.pc) := by
  rw [step, fetchAndRun, guardRange_of_exists hr, withDecoded_of_error h]

theorem step_of_decode {s : State} {i : Instr} (hr : RangeExists s.pc 2) (h : decode (fetchWord s) = .ok i) :
    step s = exec i s := by
  rw [step, fetchAndRun, guardRange_of_exists hr, withDecoded_of_ok h]

/-! ### A fault recurs -/

/-- A fault of an instruction depends on none of those four pieces of state. -/
theorem exec_fault_of_polled {i : Instr} {s t : State} {f : Fault} (hp : Polled s t) (h : exec i s = .fault f) :
    exec i t = .fault f := by
  obtain ⟨_, _, _, _, rfl⟩ := hp
  cases i with
  | call nnn => exact pushAndGo_fault.mpr ((pushAndGo_fault (s := s)).mp h)
  | ret => exact popAndReturn_fault.mpr ((popAndReturn_fault (s := s)).mp h)
  | skp x | sknp x => exact keySkip_fault.mpr ((keySkip_fault (s := s)).mp h)
  | drw x y n | ldB x | ldMemVx x | ldVxMem x => exact guardRange_fault_iff.mpr (guardRange_fault_iff.mp h)
  | ldVxK x => exact absurd h execLdVxK_ne_fault
  | _ => cases h

theorem step_fault_of_polled {s t : State} {f : Fault} (hp : Polled s t) (h : step s = .fault f) :
    step t = .fault f := by
  obtain ⟨hr, hf⟩ | ⟨hr, ⟨e, he⟩, hf⟩ | ⟨hr, i, hi, hx⟩ := step_cases s
  · rw [← h, hf, step_of_not_rangeExists (hp.pc_eq ▸ hr), hp.pc_eq]
  · rw [← h, hf, step_of_decode_error (hp.pc_eq ▸ hr) (hp.fetchWord_eq ▸ he), hp.fetchWord_eq, hp.pc_eq]
  · rw [step_of_decode (hp.pc_eq ▸ hr) (hp.fetchWord_eq ▸ hi)]
    exact exec_fault_of_polled hp (hx ▸ h)

/-- A fault of a STEP is still there after any run without RESET and LOAD (D20). -/
theorem step_runEvents_fault {s : State} {f : Fault} (h : step s = .fault f) {es : List Event}
    (hes : ∀ e ∈ es, e ≠ .reset ∧ ∀ bytes, e ≠ .load bytes) : step (State.runEvents s es).1 = .fault f := by
  have hrest : ∀ t, Polled s t → (t.handle .step).1 = t := fun t ht => by
    rw [handle_step_of_fault (step_fault_of_polled ht h)]
  exact step_fault_of_polled (polled_runEvents hrest hes) h

/-- Settles O55: a faulting STEP keeps the state, and the other events write nothing a fault depends on. -/
theorem faultingStepRepeatsUntilTheHostInterferes : Obligations.FaultingStepRepeatsUntilTheHostInterferes :=
  fun _ _ h => ⟨handle_step_of_fault h, fun _ => step_runEvents_fault h⟩

/-! ### A self-jump lasts -/

theorem Polled.atSelfJump {s t : State} (hp : Polled s t) (h : AtSelfJump s) : AtSelfJump t := by
  rwa [AtSelfJump, hp.pc_eq, hp.fetchWord_eq]

/-- A jump to itself writes to `pc` what it holds (R101). -/
theorem atRest_of_atSelfJump {s : State} (h : AtSelfJump s) : AtRest s := by
  obtain ⟨hr, nnn, hd, hpc⟩ := h
  rw [AtRest, step_of_decode hr hd, exec_jp, setPc_of_pc_eq hpc.symm]

/-- From a self-jump a run without RESET and LOAD writes DT, ST, the keypad and CHG at most. -/
theorem polled_runEvents_of_atSelfJump {s : State} (h : AtSelfJump s) {es : List Event}
    (hes : ∀ e ∈ es, e ≠ .reset ∧ ∀ bytes, e ≠ .load bytes) : Polled s (State.runEvents s es).1 :=
  polled_runEvents (fun t ht => by rw [handle_step_of_next (atRest_of_atSelfJump (ht.atSelfJump h))]) hes

/-- Settles O56: a STEP at a self-jump keeps the state, and the other events write neither `pc` nor memory. -/
theorem selfJumpIsTheEndOfARun : Obligations.SelfJumpIsTheEndOfARun := by
  intro s nnn hr hd hpc
  have h : AtSelfJump s := ⟨hr, nnn, hd, hpc⟩
  refine ⟨atRest_of_atSelfJump h, sameExcept_of_taking rfl, fun es hes => ?_⟩
  have hp := polled_runEvents_of_atSelfJump h hes
  exact ⟨atRest_of_atSelfJump (hp.atSelfJump h), hp.pc_eq, hp.fetchWord_eq, hp.sameExcept⟩

/-! ### The end of a run, and the wait for a key -/

theorem runEnded_runEvents {s : State} (h : RunEnded s) {es : List Event}
    (hes : ∀ e ∈ es, e ≠ .reset ∧ ∀ bytes, e ≠ .load bytes) : RunEnded (State.runEvents s es).1 := by
  obtain hself | ⟨f, hf⟩ := h
  · exact .inl ((polled_runEvents_of_atSelfJump hself hes).atSelfJump hself)
  · exact .inr ⟨f, step_runEvents_fault hf hes⟩

/-- A STEP that answers a next state at an instruction other than JP is no end of a run. -/
theorem not_runEnded_of_decode {s t : State} {i : Instr} (hd : decode (fetchWord s) = .ok i) (hi : ∀ nnn, i ≠ .jp nnn)
    (hstep : step s = .next t) : ¬ RunEnded s := by
  rintro (⟨-, nnn, hjp, -⟩ | ⟨f, hf⟩)
  · exact hi nnn (Except.ok.inj (hd.symm.trans hjp))
  · cases hstep.symm.trans hf

/-- With a key pressed the wait completes and moves `pc` on (R178). -/
theorem not_atRest_of_key {s : State} {x k : Nibble} (hr : RangeExists s.pc 2)
    (hd : decode (fetchWord s) = .ok (.ldVxK x)) (hk : s.readKey k = true) : ¬ AtRest s := by
  intro hrest
  rw [AtRest, step_of_decode hr hd] at hrest
  obtain hpc | ⟨-, hnone⟩ := programCounterMovesByTheRule _ s s hrest
  · bv_omega
  · exact absurd hk (by rw [hnone k]; decide)

/-- Settles O60: both ends of a run outlast the events that leave them alone; the wait is neither a jump nor a fault, and
the key pressed is one it finds. -/
theorem endOfARunLastsAndAWaitIsNone : Obligations.EndOfARunLastsAndAWaitIsNone := by
  refine ⟨fun s es h hes => runEnded_runEvents h hes, fun x k s hr hd hkeys => ?_⟩
  have hrest : AtRest s := by
    rw [AtRest, step_of_decode hr hd]
    exact execLdVxK_of_none (lowestKey_none.mpr hkeys) x
  refine ⟨hrest, not_runEnded_of_decode hd nofun hrest, ?_⟩
  rw [handle_keyset]
  exact not_atRest_of_key (x := x) (k := k) hr hd (by rw [State.readKey_setKey, if_pos rfl])

end Sys2Proof.Machine

/-! PROOFS. The decoder against the opcode map and the encoder (R71 to R78). A word is its fields put together, so the
fields that select a row fix the word's encoding; and each row of the map decodes to its instruction. -/

namespace Sys2Proof.Machine

/-! ### The remaining rows of the opcode map -/

theorem decodesTo_call : DecodesTo 0xF000 0x2000 (fun w => .call (fieldNNN w)) :=
  decodesTo_of_fieldOp rfl fun w (h : fieldOp w = 0x2#4) => by simp only [decode, h]

theorem decodesTo_seReg : DecodesTo 0xF000 0x5000 (fun w => .seReg (fieldX w) (fieldY w)) :=
  decodesTo_of_fieldOp rfl fun w (h : fieldOp w = 0x5#4) => by simp only [decode, h]

theorem decodesTo_sneReg : DecodesTo 0xF000 0x9000 (fun w => .sneReg (fieldX w) (fieldY w)) :=
  decodesTo_of_fieldOp rfl fun w (h : fieldOp w = 0x9#4) => by simp only [decode, h]

theorem decodesTo_jpV0 : DecodesTo 0xF000 0xB000 (fun w => .jpV0 (fieldNNN w)) :=
  decodesTo_of_fieldOp rfl fun w (h : fieldOp w = 0xB#4) => by simp only [decode, h]

theorem decodesTo_rnd : DecodesTo 0xF000 0xC000 (fun w => .rnd (fieldX w) (fieldNN w)) :=
  decodesTo_of_fieldOp rfl fun w (h : fieldOp w = 0xC#4) => by simp only [decode, h]

theorem decodesTo_drw : DecodesTo 0xF000 0xD000 (fun w => .drw (fieldX w) (fieldY w) (fieldN w)) :=
  decodesTo_of_fieldOp rfl fun w (h : fieldOp w = 0xD#4) => by simp only [decode, h]

theorem decodesTo_addReg : DecodesTo 0xF00F 0x8004 (fun w => .addReg (fieldX w) (fieldY w)) :=
  decodesTo_family8 rfl fun w (h : fieldN w = 0x4#4) => by simp only [decodeFamily8, h]

theorem decodesTo_subReg : DecodesTo 0xF00F 0x8005 (fun w => .subReg (fieldX w) (fieldY w)) :=
  decodesTo_family8 rfl fun w (h : fieldN w = 0x5#4) => by simp only [decodeFamily8, h]

theorem decodesTo_shrReg : DecodesTo 0xF00F 0x8006 (fun w => .shrReg (fieldX w) (fieldY w)) :=
  decodesTo_family8 rfl fun w (h : fieldN w = 0x6#4) => by simp only [decodeFamily8, h]

theorem decodesTo_subnReg : DecodesTo 0xF00F 0x8007 (fun w => .subnReg (fieldX w) (fieldY w)) :=
  decodesTo_family8 rfl fun w (h : fieldN w = 0x7#4) => by simp only [decodeFamily8, h]

theorem decodesTo_shlReg : DecodesTo 0xF00F 0x800E (fun w => .shlReg (fieldX w) (fieldY w)) :=
  decodesTo_family8 rfl fun w (h : fieldN w = 0xE#4) => by simp only [decodeFamily8, h]

/-- A row of family E fixes the family nibble and the low byte, and decodes as the family does at that low byte. -/
theorem decodesTo_familyE {pattern : Word} {instr : Word → Instr} (hE : fieldOp pattern = 0xE#4)
    (hd : ∀ w, fieldNN w = fieldNN pattern → decodeFamilyE w = .ok (instr w)) : DecodesTo 0xF0FF pattern instr := by
  intro w h
  rw [decode_familyE ((fieldOp_of_mask h rfl).trans hE)]
  exact hd w (fieldNN_of_mask h rfl)

theorem decodesTo_skp : DecodesTo 0xF0FF 0xE09E (fun w => .skp (fieldX w)) :=
  decodesTo_familyE rfl fun w (h : fieldNN w = 0x9E#8) => by simp only [decodeFamilyE, h]

theorem decodesTo_sknp : DecodesTo 0xF0FF 0xE0A1 (fun w => .sknp (fieldX w)) :=
  decodesTo_familyE rfl fun w (h : fieldNN w = 0xA1#8) => by simp only [decodeFamilyE, h]

theorem decodesTo_ldVxK : DecodesTo 0xF0FF 0xF00A (fun w => .ldVxK (fieldX w)) :=
  decodesTo_familyF rfl fun w (h : fieldNN w = 0x0A#8) => by simp only [decodeFamilyF, h]

theorem decodesTo_addI : DecodesTo 0xF0FF 0xF01E (fun w => .addI (fieldX w)) :=
  decodesTo_familyF rfl fun w (h : fieldNN w = 0x1E#8) => by simp only [decodeFamilyF, h]

theorem decodesTo_ldB : DecodesTo 0xF0FF 0xF033 (fun w => .ldB (fieldX w)) :=
  decodesTo_familyF rfl fun w (h : fieldNN w = 0x33#8) => by simp only [decodeFamilyF, h]

theorem decodesTo_ldMemVx : DecodesTo 0xF0FF 0xF055 (fun w => .ldMemVx (fieldX w)) :=
  decodesTo_familyF rfl fun w (h : fieldNN w = 0x55#8) => by simp only [decodeFamilyF, h]

theorem decodesTo_ldVxMem : DecodesTo 0xF0FF 0xF065 (fun w => .ldVxMem (fieldX w)) :=
  decodesTo_familyF rfl fun w (h : fieldNN w = 0x65#8) => by simp only [decodeFamilyF, h]

/-! ### Encode after decode -/

section
variable {w : Word}

theorem formatNNN_of_fieldOp {op : Nibble} (h : fieldOp w = op) : formatNNN op (fieldNNN w) = w :=
  h ▸ formatNNN_fields w

theorem formatXNN_of_fieldOp {op : Nibble} (h : fieldOp w = op) : formatXNN op (fieldX w) (fieldNN w) = w :=
  h ▸ formatXNN_fields w

theorem formatXYN_of_fieldOp {op : Nibble} (h : fieldOp w = op) : formatXYN op (fieldX w) (fieldY w) (fieldN w) = w :=
  h ▸ formatXYN_fields w

/-- Clearing the low nibble of a word clears its field N. -/
theorem formatXYN_clear (op x y n : Nibble) : formatXYN op x y n &&& 0xFFF0#16 = formatXYN op x y 0 := by
  show (op ++ x ++ y ++ n : BitVec (4 + 4 + 4 + 4)) &&& (0xF#4 ++ 0xF#4 ++ 0xF#4 ++ 0#4)
    = (op ++ x ++ y ++ 0#4 : BitVec (4 + 4 + 4 + 4))
  simp only [BitVec.and_append, Laws.EncodedInTable.and_ones4, BitVec.and_zero]

theorem formatXY0_of_fieldOp {op : Nibble} (h : fieldOp w = op) :
    formatXYN op (fieldX w) (fieldY w) 0 = w &&& 0xFFF0#16 := by
  rw [← formatXYN_clear op (fieldX w) (fieldY w) (fieldN w), formatXYN_of_fieldOp h]

variable {i : Instr}

theorem encode_of_decodeFamily0 (h : decodeFamily0 w = .ok i) : encode i = w := by
  unfold decodeFamily0 at h
  split at h
  case isTrue hw => cases h; exact hw.symm
  case isFalse =>
    split at h
    case isTrue hw => cases h; exact hw.symm
    case isFalse => cases h

theorem encode_of_decodeFamily8 (hop : fieldOp w = 0x8#4) (h : decodeFamily8 w = .ok i) : encode i = w := by
  have hw := formatXYN_of_fieldOp hop
  unfold decodeFamily8 at h
  split at h <;> cases h
  all_goals
    rename_i hn
    rwa [hn] at hw

theorem encode_of_decodeFamilyE (hop : fieldOp w = 0xE#4) (h : decodeFamilyE w = .ok i) : encode i = w := by
  have hw := formatXNN_of_fieldOp hop
  unfold decodeFamilyE at h
  split at h <;> cases h
  all_goals
    rename_i hn
    rwa [hn] at hw

theorem encode_of_decodeFamilyF (hop : fieldOp w = 0xF#4) (h : decodeFamilyF w = .ok i) : encode i = w := by
  have hw := formatXNN_of_fieldOp hop
  unfold decodeFamilyF at h
  split at h <;> cases h
  all_goals
    rename_i hn
    rwa [hn] at hw

end

/-- Settles O2: in each family the fields the instruction does not hold are those that selected it, but for the low nibble
of families 5 and 9. -/
theorem encodeOfDecodeIsCanonicalWord : Obligations.EncodeOfDecodeIsCanonicalWord := by
  intro w i h
  have hkeep (hop : fieldOp w ≠ 0x5#4 ∧ fieldOp w ≠ 0x9#4) (he : encode i = w) :
      encode i = if fieldOp w = 0x5#4 ∨ fieldOp w = 0x9#4 then w &&& 0xFFF0#16 else w := by
    rw [if_neg (not_or.mpr hop), he]
  unfold decode at h
  split at h -- the case `h_k` is the family k - 1
  case h_1 _ hop => exact hkeep (by rw [hop]; decide) (encode_of_decodeFamily0 h)
  case h_2 _ hop | h_3 _ hop | h_11 _ hop | h_12 _ hop =>
    cases h; exact hkeep (by rw [hop]; decide) (formatNNN_of_fieldOp hop)
  case h_4 _ hop | h_5 _ hop | h_7 _ hop | h_8 _ hop | h_13 _ hop =>
    cases h; exact hkeep (by rw [hop]; decide) (formatXNN_of_fieldOp hop)
  case h_6 _ hop | h_10 _ hop => cases h; rw [if_pos (by rw [hop]; decide)]; exact formatXY0_of_fieldOp hop
  case h_9 _ hop => exact hkeep (by rw [hop]; decide) (encode_of_decodeFamily8 hop h)
  case h_14 _ hop => cases h; exact hkeep (by rw [hop]; decide) (formatXYN_of_fieldOp hop)
  case h_15 _ hop => exact hkeep (by rw [hop]; decide) (encode_of_decodeFamilyE hop h)
  case h_16 =>
    have hop : fieldOp w = 0xF#4 := by
      simp only [imp_false] at *
      bv_omega
    exact hkeep (by rw [hop]; decide) (encode_of_decodeFamilyF hop h)

/-! ### The rows of the opcode map -/

/-- The word of every instruction is selected by the instruction's own row (R74). -/
theorem encodedInTable (i : Instr) : Laws.EncodedInTable.Statement i := by
  open Laws.EncodedInTable in
  cases i with
  | cls | ret => rfl
  | jp nnn | call nnn | ldI nnn | jpV0 nnn => exact statement_of_row _ rfl (formatNNN_mask _ _)
  | seByte x nn | sneByte x nn | ldByte x nn | addByte x nn | rnd x nn =>
    exact statement_of_row _ rfl (formatXNN_mask _ _ _)
  | seReg x y | sneReg x y | drw x y n => exact statement_of_row _ rfl (formatXYN_mask _ _ _ _)
  | ldReg x y | orReg x y | andReg x y | xorReg x y | addReg x y | subReg x y | shrReg x y | subnReg x y | shlReg x y =>
    exact statement_of_row _ rfl (formatXYS_mask _ _ _ _)
  | _ => exact statement_of_row _ rfl (formatXSS_mask _ _ _)

/-- A row of the opcode map that selects a word makes it well formed. -/
theorem wordWellFormed_of_selects {r : OpcodeRow} {w : Word} (hr : r ∈ opcodeTable) (h : w &&& r.mask = r.pattern) :
    wordWellFormed w = true := List.any_eq_true.mpr ⟨r, hr, beq_iff_eq.mpr h⟩

theorem wordWellFormed_encode (i : Instr) : wordWellFormed (encode i) = true := by
  have h := encodedInTable i
  obtain ⟨r, hr, hsel⟩ := Option.map_eq_some_iff.mp h
  exact List.any_eq_true.mpr ⟨r, List.mem_of_getElem? hr, hsel⟩

/-- A word of family 5 or 9 is well formed whatever its low 12 bits. -/
theorem wordWellFormed_of_family5_9 {w : Word} (h : fieldOp w = 0x5#4 ∨ fieldOp w = 0x9#4) :
    wordWellFormed w = true := by
  have hmask : w &&& 0xF000#16 = formatXYN (fieldOp w) 0 0 0 := by
    conv_lhs => rw [← formatXYN_fields w]
    exact Laws.EncodedInTable.formatXYN_mask _ _ _ _
  obtain hop | hop := h <;> rw [hop] at hmask
  · exact wordWellFormed_of_selects (r := ⟨"SE_Vx__Vy", 0xF000, 0x5000⟩) (by decide) hmask
  · exact wordWellFormed_of_selects (r := ⟨"SNE_Vx__Vy", 0xF000, 0x9000⟩) (by decide) hmask

theorem wordWellFormed_of_decode {w : Word} {i : Instr} (h : decode w = .ok i) : wordWellFormed w = true := by
  by_cases hop : fieldOp w = 0x5#4 ∨ fieldOp w = 0x9#4
  · exact wordWellFormed_of_family5_9 hop
  · have he := encodeOfDecodeIsCanonicalWord w i h
    rw [if_neg hop] at he
    exact he ▸ wordWellFormed_encode i

/-- Every row of the opcode map decodes, to its own instruction. -/
theorem opcodeTable_decodesTo : ∀ r ∈ opcodeTable, ∃ instr, DecodesTo r.mask r.pattern instr := by
  simp only [opcodeTable, List.forall_mem_cons, List.cons_append, List.nil_append,
    List.not_mem_nil, false_imp_iff, implies_true, and_true]
  exact ⟨⟨_, decodesTo_of_whole_word (i := .cls) rfl⟩, ⟨_, decodesTo_of_whole_word (i := .ret) rfl⟩, ⟨_, decodesTo_jp⟩,
    ⟨_, decodesTo_call⟩, ⟨_, decodesTo_seByte⟩, ⟨_, decodesTo_sneByte⟩, ⟨_, decodesTo_seReg⟩, ⟨_, decodesTo_ldByte⟩,
    ⟨_, decodesTo_addByte⟩, ⟨_, decodesTo_ldReg⟩, ⟨_, decodesTo_orReg⟩, ⟨_, decodesTo_andReg⟩, ⟨_, decodesTo_xorReg⟩,
    ⟨_, decodesTo_addReg⟩, ⟨_, decodesTo_subReg⟩, ⟨_, decodesTo_shrReg⟩, ⟨_, decodesTo_subnReg⟩, ⟨_, decodesTo_shlReg⟩,
    ⟨_, decodesTo_sneReg⟩, ⟨_, decodesTo_ldI⟩, ⟨_, decodesTo_jpV0⟩, ⟨_, decodesTo_rnd⟩, ⟨_, decodesTo_drw⟩,
    ⟨_, decodesTo_skp⟩, ⟨_, decodesTo_sknp⟩, ⟨_, decodesTo_ldVxDt⟩, ⟨_, decodesTo_ldVxK⟩, ⟨_, decodesTo_ldDtVx⟩,
    ⟨_, decodesTo_ldStVx⟩, ⟨_, decodesTo_addI⟩, ⟨_, decodesTo_ldF⟩, ⟨_, decodesTo_ldB⟩, ⟨_, decodesTo_ldMemVx⟩,
    ⟨_, decodesTo_ldVxMem⟩⟩

theorem decode_of_wordWellFormed {w : Word} (h : wordWellFormed w = true) : ∃ i, decode w = .ok i := by
  obtain ⟨r, hr, hsel⟩ := List.any_eq_true.mp h
  obtain ⟨instr, hd⟩ := opcodeTable_decodesTo r hr
  exact ⟨instr w, hd w (beq_iff_eq.mp hsel)⟩

/-- A word no row selects is the DecodeError of that word (R76). -/
theorem decode_of_not_wordWellFormed {w : Word} (h : wordWellFormed w = false) :
    decode w = .error (.undefinedWord w) := by
  cases hd : decode w with
  | ok i => exact absurd (wordWellFormed_of_decode hd) (by rw [h]; decide)
  | error e => rw [decode_error hd]

/-- Settles O3: what decodes has the word of its instruction, which a row selects; and every row decodes. -/
theorem decodeSucceedsExactlyOnTheOpcodeMap : Obligations.DecodeSucceedsExactlyOnTheOpcodeMap :=
  fun _ => ⟨⟨fun ⟨_, h⟩ => wordWellFormed_of_decode h, decode_of_wordWellFormed⟩, decode_of_not_wordWellFormed⟩

/-- Settles O4: the decoder evaluated on the eleven words. -/
theorem sampleWordsDecodeAsTheSpecEncodesThem : Obligations.SampleWordsDecodeAsTheSpecEncodesThem := by
  unfold Obligations.SampleWordsDecodeAsTheSpecEncodesThem
  decide

end Sys2Proof.Machine

/-! PROOFS. Fetch (R52, R53, R70, R72). A STEP is the first of two byte faults, an undefined word, or the instruction; and
a fetch reads memory afresh, so bytes stored at `pc` and `pc + 1` are the next instruction. -/

namespace Sys2Proof.Machine

/-- Where both bytes exist, the second is at the number after `pc`. -/
theorem fetchWord_of_rangeExists {s : State} (hr : RangeExists s.pc 2) :
    fetchWord s = wordOfBytes (Memory.read s.mem s.pc.toNat) (Memory.read s.mem (s.pc.toNat + 1)) := by
  rw [fetchWord, show (s.pc + 1).toNat = s.pc.toNat + 1 from toNat_add_ofNat hr (by decide)]

/-- Settles O5: the word of the two bytes at `pc` is what the fetch decodes. -/
theorem stepRunsTheDecodedInstruction : Obligations.StepRunsTheDecodedInstruction :=
  fun _ _ hr hd => step_of_decode hr ((fetchWord_of_rangeExists hr).symm ▸ hd)

theorem step_of_memSize_le {s : State} (h : Config.memSize ≤ s.pc.toNat) : step s = .fault (.outOfRange .mem s.pc) := by
  rw [step_of_not_rangeExists (by simp only [RangeExists, Config.memSize] at h ⊢; omega), if_pos h]

theorem step_of_not_wordWellFormed {s : State} (hr : RangeExists s.pc 2) (h : wordWellFormed (fetchWord s) = false) :
    step s = .fault (.decodeError (fetchWord s) s.pc) := step_of_decode_error hr (decode_of_not_wordWellFormed h)

/-- Settles O6: the range check of the fetch comes before the decoder. -/
theorem stepFaultsInTheOrderFetchDecodeExecute : Obligations.StepFaultsInTheOrderFetchDecodeExecute :=
  fun _ => ⟨step_of_memSize_le, step_of_pc_eq_last, step_of_not_wordWellFormed⟩

/-! ### Words stored where they are fetched -/

theorem tableWord_toNat (w : Word) : tableWord 16 w.toNat = w := by
  rw [tableWord, Nat.mod_eq_of_lt w.isLt, BitVec.ofNat_toNat, BitVec.setWidth_eq]

/-- A placed word is fetched back, high byte first (R52). -/
theorem fetchWord_withFetchWord {s : State} (hwf : Memory.wf s.mem = true) (hr : RangeExists s.pc 2) (w : Word) :
    fetchWord (s.withFetchWord 16 w.toNat) = w := by
  have h1 : (s.pc + 1).toNat = s.pc.toNat + 1 := toNat_add_ofNat hr (by decide)
  have hlo : s.pc.toNat < Config.memSize := Nat.lt_of_succ_lt hr
  have hhi : s.pc.toNat + 1 < Config.memSize := hr
  rw [fetchWord_of_rangeExists (s := s.withFetchWord 16 w.toNat) hr]
  simp only [State.withFetchWord, State.setMem_mem, State.setMem_pc, tableWord_toNat, placeWord, placeByte, h1, hlo, hhi,
    if_true, Memory.read_write (Memory.wf_write hwf hlo _), Memory.read_write hwf]
  simp

/-- Settles O7: the fetch reads the placed word back, and the decoder reads the instruction back from it. -/
theorem placedInstructionIsTheOneStepped : Obligations.PlacedInstructionIsTheOneStepped := by
  intro i s hwf hr
  refine step_of_decode (s := s.withFetchWord 16 (encode i).toNat) hr ?_
  rw [fetchWord_withFetchWord hwf hr, decode_encode]

end Sys2Proof.Machine

/-! PROOFS. Calls, returns, computed jumps and the skips on registers and keys (R100 to R107, R175 to R177). Each writes
`pc`, and CALL and RET the stack beside it; the answers of the shared operations show the rest. -/

namespace Sys2Proof.Machine

/-! ### CALL and RET -/

section
variable {s : State} (nnn : Addr)

theorem exec_call (hlt : s.sp.toNat < 16) : exec (.call nnn) s =
    .next { s with stack := s.stack.set s.sp.toNat s.pc hlt, sp := s.sp + 1, pc := nnn.setWidth 16 } :=
  pushAndGo_of_lt hlt _

theorem exec_ret (hpos : 0 < s.sp.toNat) (hle : s.sp.toNat ≤ 16) : exec .ret s =
    .next { s with sp := s.sp - 1, pc := s.stack[s.sp.toNat - 1]'(show s.sp.toNat - 1 < 16 by omega) + 2 } :=
  popAndReturn_of_pos hpos hle

/-- RET after CALL finds the entry CALL pushed and the stack pointer it moved (R100, R102). -/
theorem exec_ret_after_call (hlt : s.sp.toNat < 16) :
    exec .ret { s with stack := s.stack.set s.sp.toNat s.pc hlt, sp := s.sp + 1, pc := nnn.setWidth 16 } =
      .next { s with stack := s.stack.set s.sp.toNat s.pc hlt, pc := s.pc + 2 } := by
  have hsp : (s.sp + 1).toNat = s.sp.toNat + 1 := by bv_omega
  rw [exec_ret (by rw [hsp]; omega) (by rw [hsp]; omega)]
  simp only [hsp, Nat.add_sub_cancel, Vector.getElem_set_self, BitVec.add_sub_cancel]

end

/-- Settles O10: `pushAndGo` puts the old `pc` on top of the stack, and faults where no entry is free. -/
theorem callPushesItsOwnAddress : Obligations.CallPushesItsOwnAddress := by
  refine ⟨decodesTo_call, fun nnn s hlt => ⟨_, exec_call nnn hlt, rfl, ?_, ?_, fun k hk => ?_, sameExcept_of_taking rfl⟩,
    fun nnn s hge => pushAndGo_fault.mpr ⟨hge, rfl⟩⟩
  · show (s.sp + 1).toNat = s.sp.toNat + 1
    bv_omega
  · exact Vector.getElem_set_self hlt
  · exact Vector.getElem_set_ne hlt k.isLt hk.symm

/-- Settles O11: `popAndReturn` reads the entry below the stack pointer, and faults where there is none. -/
theorem returnPopsAndAdvancesByTwo : Obligations.ReturnPopsAndAdvancesByTwo := by
  refine ⟨decodesTo_of_whole_word rfl,
    fun s hpos hle => ⟨_, exec_ret hpos hle, fun k hk => ?_, ?_, sameExcept_of_taking rfl⟩,
    fun s h0 => popAndReturn_fault.mpr (.inl ⟨h0, rfl⟩), fun s hgt => popAndReturn_fault.mpr (.inr ⟨hgt, rfl⟩)⟩
  · simp only [← hk, Nat.add_sub_cancel]
  · show (s.sp - 1).toNat + 1 = s.sp.toNat
    bv_omega

/-- Settles O12: RET after CALL undoes it but for the entry left on the stack. -/
theorem callThenReturnComesBackAfterTheCall : Obligations.CallThenReturnComesBackAfterTheCall := by
  refine fun nnn s hlt =>
    ⟨_, _, exec_call nnn hlt, exec_ret_after_call nnn hlt, rfl, rfl, fun k => ?_, sameExcept_of_taking rfl⟩
  simp only [Vector.getElem_set, eq_comm]

/-! ### JP V0, addr -/

theorem exec_jpV0 (nnn : Addr) (s : State) :
    exec (.jpV0 nnn) s = .next (s.setPc (nnn.setWidth 16 + (s.readV 0).setWidth 16)) := rfl

/-- A 12-bit address plus a byte fits 16 bits (R103). -/
theorem toNat_addr_add_byte (nnn : Addr) (b : Byte) :
    (nnn.setWidth 16 + b.setWidth 16).toNat = nnn.toNat + b.toNat := by
  bv_omega

/-- Settles O13: the instruction is a `setPc` of the sum, and from 0x1000 up there is nothing to fetch. -/
theorem jumpWithOffsetIsTheRawSum : Obligations.JumpWithOffsetIsTheRawSum := by
  refine ⟨decodesTo_jpV0, fun nnn s =>
    ⟨_, exec_jpV0 nnn s, toNat_addr_add_byte nnn _, sameExcept_setPc s _, fun h => ?_⟩⟩
  exact step_of_memSize_le (h.trans_eq (toNat_addr_add_byte nnn _).symm)

/-! ### Skips -/

theorem exec_seReg (x y : Nibble) (s : State) : exec (.seReg x y) s = .next (s.skipIf (s.readV x == s.readV y)) := rfl

theorem exec_sneReg (x y : Nibble) (s : State) : exec (.sneReg x y) s = .next (s.skipIf (s.readV x != s.readV y)) := rfl

/-- Settles O15: both instructions are a `skipIf`, on the comparison of Vx with Vy and on its negation. -/
theorem registerSkipsCompareTwoRegisters : Obligations.RegisterSkipsCompareTwoRegisters :=
  ⟨decodesTo_seReg, decodesTo_sneReg,
    fun x y s => exec_of_skipIf (exec_seReg x y s) beq_iff_eq.mpr beq_eq_false_iff_ne.mpr,
    fun x y s => exec_of_skipIf (exec_sneReg x y s) bne_iff_ne.mpr bne_eq_false_iff_eq.mpr⟩

/-- The low nibble of a register value up to 15 is the key number it stands for. -/
theorem keyOf_of_toNat_eq {s : State} {b : Byte} {k : Nibble} (h : b.toNat = k.toNat) : s.keyOf b = s.readKey k := by
  rw [State.keyOf, show b.setWidth 4 = k by bv_omega]

theorem keySkip_of_toNat_eq {s : State} {x k : Nibble} (h : (s.readV x).toNat = k.toNat) (level : Bool) :
    keySkip x level s = .next (s.skipIf (s.readKey k == level)) := by
  rw [keySkip_of_le (by bv_omega), keyOf_of_toNat_eq h]

/-- Settles O46: both instructions are a `skipIf` on the key's flag, behind one check of the key number. -/
theorem keySkipsTestTheKeyLevel : Obligations.KeySkipsTestTheKeyLevel := by
  refine ⟨decodesTo_skp, decodesTo_sknp, fun x k s h => ?_,
    fun x s hgt => ⟨keySkip_of_gt hgt true, keySkip_of_gt hgt false⟩⟩
  refine ⟨⟨_, keySkip_of_toNat_eq h true, ?_, sameExcept_setPc s _⟩,
    ⟨_, keySkip_of_toNat_eq h false, ?_, sameExcept_setPc s _⟩⟩
  · rw [State.skipIf_pc, beq_true]
  · cases hk : s.readKey k <;> rfl

end Sys2Proof.Machine

/-! PROOFS. The flag-writing instructions for every X and Y, and RND (R121, R128 to R133). Each flag-writing instruction is
a `setFlagThenV`; what is left is its flag in the form the statement gives it. -/

namespace Sys2Proof.Machine

section
variable (a b : Byte)

theorem carryFlag_eq_ite_lt : carryFlag a b = if 255 < a.toNat + b.toNat then 1 else 0 := carryFlag_eq_ite a b

theorem notBorrowFlag_eq_ite_lt : notBorrowFlag a b = if a < b then 0 else 1 := notBorrowFlag_eq_ite a b

theorem lowBitFlag_eq_and : lowBitFlag a = a &&& 1 := by
  apply BitVec.eq_of_toNat_eq
  rw [toNat_lowBitFlag, BitVec.toNat_and]
  exact (Nat.and_one_is_mod _).symm

theorem highBitFlag_eq_shiftRight : highBitFlag a = a >>> 7 := by
  apply BitVec.eq_of_toNat_eq
  rw [toNat_highBitFlag, BitVec.toNat_ushiftRight, Nat.shiftRight_eq_div_pow]

end

/-- Settles O21: the flag is the carry of the old values. -/
theorem addRegistersSetsCarry : Obligations.AddRegistersSetsCarry := by
  refine ⟨decodesTo_addReg, fun x y s => ?_⟩
  rw [← carryFlag_eq_ite_lt]
  exact exec_of_setFlagThenV (exec_addReg x y s)

/-- Settles O22: the flag is the not-borrow of the old Vx less Vy. -/
theorem subRegistersSetsNotBorrow : Obligations.SubRegistersSetsNotBorrow := by
  refine ⟨decodesTo_subReg, fun x y s => ?_⟩
  rw [← notBorrowFlag_eq_ite_lt]
  exact exec_of_setFlagThenV (exec_subReg x y s)

/-- Settles O23: the flag is the lowest bit of the old Vx. -/
theorem shiftRightTakesVyAndFlagsVx : Obligations.ShiftRightTakesVyAndFlagsVx := by
  refine ⟨decodesTo_shrReg, fun x y s => ?_⟩
  rw [← lowBitFlag_eq_and]
  exact exec_of_setFlagThenV (exec_shrReg x y s)

/-- Settles O24: the flag is the not-borrow of the old Vy less Vx. -/
theorem subnRegistersSetsNotBorrow : Obligations.SubnRegistersSetsNotBorrow := by
  refine ⟨decodesTo_subnReg, fun x y s => ?_⟩
  rw [← notBorrowFlag_eq_ite_lt]
  exact exec_of_setFlagThenV (exec_subnReg x y s)

/-- Settles O25: the flag is the highest bit of the old Vx. -/
theorem shiftLeftTakesVyAndFlagsVx : Obligations.ShiftLeftTakesVyAndFlagsVx := by
  refine ⟨decodesTo_shlReg, fun x y s => ?_⟩
  rw [← highBitFlag_eq_shiftRight]
  exact exec_of_setFlagThenV (exec_shlReg x y s)

theorem exec_rnd (x : Nibble) (nn : Byte) (s : State) :
    exec (.rnd x nn) s = .next (s.setV x (Config.rnd s.rndDraws &&& nn)).consumeRnd.advance := rfl

/-- Settles O26: the instruction is a `setV` of the masked byte and one draw more. -/
theorem randomIsMaskedAndConsumesOneByte : Obligations.RandomIsMaskedAndConsumesOneByte := by
  refine ⟨decodesTo_rnd, fun x nn s => ?_⟩
  have hx := State.readV_setV_self s x (Config.rnd s.rndDraws &&& nn)
  refine ⟨_, exec_rnd x nn s, hx, ?_, rfl, rfl, fun y hy => ?_, sameExcept_of_taking rfl⟩
  · rw [State.readV_advance, State.readV_consumeRnd, hx, BitVec.and_assoc, BitVec.and_not_self]
    exact BitVec.and_zero
  · exact readV_setV_of_beq s _ (beq_eq_false_iff_ne.mpr hy)

end Sys2Proof.Machine

/-! PROOFS. Stores and loads through I (R140, R142 to R147). Where the guard lets an instruction complete, its stores are
those of `Memory.read_store`; what is left is which byte stands at which address. -/

namespace Sys2Proof.Machine

section
variable (x : Nibble) (s : State)

theorem exec_addI : exec (.addI x) s = .next (s.setI (s.i + (s.readV x).setWidth 16)).advance := rfl

theorem exec_ldB : exec (.ldB x) s =
    guardRange s.i 3 (.next (s.setMem (Memory.store s.mem s.i (bcdDigits (s.readV x)))).advance) := rfl

end

/-- Settles O28: the instruction is a `setI` of the 16-bit sum. -/
theorem addIndexWrapsAtSixteenBits : Obligations.AddIndexWrapsAtSixteenBits := by
  refine ⟨decodesTo_addI, fun x s => ⟨_, exec_addI x s, ?_, rfl, sameExcept_i_pc s _ _⟩⟩
  rw [State.advance_i, State.setI_i, BitVec.toNat_add, BitVec.toNat_setWidth_of_le (by decide)]

/-! ### Stored bytes, by their offset from the base -/

section
variable {m : Memory} {base : Word} {bs : List Byte}

theorem read_store_add (hwf : Memory.wf m = true) (hr : RangeExists base bs.length) {k : Nat} (hk : k < bs.length) :
    Memory.read (Memory.store m base bs) (base.toNat + k) = bs.getD k 0 := by
  rw [Memory.read_store hwf hr, if_pos ⟨Nat.le_add_right _ _, Nat.add_lt_add_left hk _⟩, Nat.add_sub_cancel_left]

theorem read_store_outside (hwf : Memory.wf m = true) (hr : RangeExists base bs.length) {a : Nat}
    (ha : a < base.toNat ∨ base.toNat + bs.length ≤ a) : Memory.read (Memory.store m base bs) a = Memory.read m a := by
  rw [Memory.read_store hwf hr, if_neg (by omega)]

end

/-- Settles O30: the three bytes stored are the decimal digits. -/
theorem bcdStoresThreeDigits : Obligations.BcdStoresThreeDigits := by
  refine ⟨decodesTo_ldB, fun x s hwf hr => ?_⟩
  have hr' : RangeExists s.i (bcdDigits (s.readV x)).length := hr
  have hread (k : Nat) (hk : k < 3) := read_store_add hwf hr' (k := k) hk
  refine ⟨_, (exec_ldB x s).trans (guardRange_of_exists hr _), ?_, fun a => read_store_outside hwf hr', rfl,
    sameExcept_of_taking rfl⟩
  have hlt := (s.readV x).isLt
  refine ⟨(s.readV x).toNat / 100, (s.readV x).toNat / 10 % 10, (s.readV x).toNat % 10, hread 0 (by decide),
    hread 1 (by decide), hread 2 (by decide), ?_, ?_, ?_, ?_⟩ <;> omega

/-! ### The dump of V0..Vx -/

/-- The state a dump leaves. -/
theorem exec_ldMemVx_of_exists {x : Nibble} {s : State} (hr : RangeExists s.i (x.toNat + 1)) :
    exec (.ldMemVx x) s =
      .next ((s.setMem (Memory.store s.mem s.i (dumpBytes s x))).setI (indexAfter s.i x)).advance :=
  (exec_ldMemVx x s).trans (guardRange_of_exists hr _)

theorem exec_ldVxMem_of_exists {x : Nibble} {s : State} (hr : RangeExists s.i (x.toNat + 1)) :
    exec (.ldVxMem x) s =
      .next (({ s with v := loadRegs s.mem s.i s.v (dumpCount x) } : State).setI (indexAfter s.i x)).advance :=
  (exec_ldVxMem x s).trans (guardRange_of_exists hr _)

/-- Byte `I + k` after a dump is V[k] (R146). -/
theorem read_dump {x k : Nibble} {s : State} (hwf : Memory.wf s.mem = true) (hr : RangeExists s.i (x.toNat + 1))
    (hk : k.toNat ≤ x.toNat) :
    Memory.read (Memory.store s.mem s.i (dumpBytes s x)) (s.i.toNat + k.toNat) = s.readV k := by
  rw [← length_dumpBytes s x] at hr
  rw [read_store_add hwf hr (by rw [length_dumpBytes]; omega), getD_dumpBytes s x k hk]

/-- Settles O31: the bytes stored are V0..Vx, in order. -/
theorem registerDumpStoresAndMovesIndex : Obligations.RegisterDumpStoresAndMovesIndex := by
  refine ⟨decodesTo_ldMemVx, fun x s hwf hr => ⟨_, exec_ldMemVx_of_exists hr, fun k => read_dump hwf hr, fun a ha => ?_,
    toNat_indexAfter hr, rfl, sameExcept_of_taking rfl⟩⟩
  have hlen := length_dumpBytes s x
  exact read_store_outside hwf (hlen ▸ hr) (by omega)

/-! ### The load of V0..Vx -/

/-- The registers after a load: those up to X from memory, the others as before (R147). -/
theorem readV_load {x : Nibble} {s : State} (hr : RangeExists s.i (x.toNat + 1)) (k : Nibble) :
    ({ s with v := loadRegs s.mem s.i s.v (dumpCount x) } : State).readV k =
      if k.toNat ≤ x.toNat then Memory.read s.mem (s.i.toNat + k.toNat) else s.readV k := by
  rw [readV_loadRegs]
  split
  case isTrue hk => rw [toNat_add_ofNat hr (Nat.lt_succ_of_le hk)]
  case isFalse => rfl

/-- Settles O32: a load writes the registers up to X and no other. -/
theorem registerLoadReadsAndMovesIndex : Obligations.RegisterLoadReadsAndMovesIndex := by
  refine ⟨decodesTo_ldVxMem, fun x s hr => ⟨_, exec_ldVxMem_of_exists hr, fun k hk => ?_, fun k hk => ?_,
    toNat_indexAfter hr, rfl, sameExcept_of_taking rfl⟩⟩
  · exact (readV_load hr k).trans (if_pos hk)
  · exact (readV_load hr k).trans (if_neg (Nat.not_le.mpr hk))

/-- Settles O34: the load reads back from the same addresses what the dump stored there. -/
theorem dumpThenLoadRestoresRegisters : Obligations.DumpThenLoadRestoresRegisters := by
  refine fun x s hwf hr => ⟨_, exec_ldMemVx_of_exists hr, fun u hmem hi => ?_⟩
  have hru : RangeExists u.i (x.toNat + 1) := hi ▸ hr
  refine ⟨_, exec_ldVxMem_of_exists hru, fun k hk => ?_⟩
  refine (readV_load hru k).trans ((if_pos hk).trans ?_)
  rw [hmem, hi]
  exact read_dump hwf hr hk

/-- Settles O8: with I = `pc` + 2 the dump stores V0 and V1 where the next fetch reads. -/
theorem storedRegistersAreTheNextFetch : Obligations.StoredRegistersAreTheNextFetch := by
  refine fun x s hwf hi hx hr => ⟨_, exec_ldMemVx_of_exists hr, ?_⟩
  have hfetch : RangeExists (s.pc + 2) 2 := hi ▸ (show RangeExists s.i 2 by unfold RangeExists at hr ⊢; omega)
  rw [fetchWord_of_rangeExists hfetch]
  show wordOfBytes (Memory.read (Memory.store s.mem s.i (dumpBytes s x)) (s.pc + 2).toNat)
    (Memory.read (Memory.store s.mem s.i (dumpBytes s x)) ((s.pc + 2).toNat + 1)) = _
  rw [← hi]
  exact congrArg₂ wordOfBytes (read_dump (k := 0) hwf hr (Nat.zero_le _)) (read_dump (k := 1) hwf hr hx)

/-- Settles O35: the guard answers before the instruction does, and a sprite of no rows is not guarded. -/
theorem memoryInstructionsFaultBeforeWriting : Obligations.MemoryInstructionsFaultBeforeWriting :=
  fun _ _ _ _ => ⟨fun hr => guardRange_of_not_exists (by decide) hr _,
    fun hr => ⟨guardRange_of_not_exists (Nat.succ_pos _) hr _, guardRange_of_not_exists (Nat.succ_pos _) hr _⟩,
    fun hn hr => guardRange_of_not_exists hn hr _, ⟨_, rfl⟩⟩

end Sys2Proof.Machine

/-! PROOFS. Drawing a sprite (R157). What the loops leave on the framebuffer and in the collision bit is that of
Laws/Sprite.lean; a second drawing covers the same pixels, so inverting them twice restores them. -/

namespace Sys2Proof.Machine

/-- The state DRW leaves where it completes: the canvas on the framebuffer, its collision bit in VF. -/
def drawn (x y n : Nibble) (s : State) : State :=
  ((s.setFb (drwCanvas x y n s).fb).setV vf (flagByte (drwCanvas x y n s).collision)).advance

section
variable {x y n : Nibble} {s t : State}

theorem exec_drw_of_exists (hr : n = 0 ∨ RangeExists s.i n.toNat) : exec (.drw x y n) s = .next (drawn x y n s) := by
  obtain rfl | hr := hr
  · exact guardRange_zero s.i _
  · exact guardRange_of_exists hr _

theorem exec_drw_next (h : exec (.drw x y n) s = .next t) : (n = 0 ∨ RangeExists s.i n.toNat) ∧ t = drawn x y n s := by
  obtain ⟨hr, ht⟩ := guardRange_next h
  exact ⟨hr.imp_left fun h0 => BitVec.eq_of_toNat_eq h0, (Host.Outcome.next.inj ht).symm⟩

theorem readV_drawn_vf : (drawn x y n s).readV vf = flagByte (drwCanvas x y n s).collision :=
  State.readV_setV_self (s.setFb _) vf _

theorem readV_drawn_other {r : Nibble} (hr : r ≠ vf) : (drawn x y n s).readV r = s.readV r :=
  readV_setV_of_beq (s.setFb _) _ (beq_eq_false_iff_ne.mpr hr)

theorem flagByte_eq_one {c : Bool} : flagByte c = 1 ↔ c = true := by cases c <;> decide

/-- The flag of DRW is a bit. -/
theorem readV_drawn_vf_cases : (drawn x y n s).readV vf = 1 ∨ (drawn x y n s).readV vf = 0 := by
  rw [readV_drawn_vf]
  cases (drwCanvas x y n s).collision
  · exact .inr rfl
  · exact .inl rfl

/-- A pixel after DRW: inverted iff a sprite bit covers it. -/
theorem lit_drawn (hr : n = 0 ∨ RangeExists s.i n.toNat) (px : Fin Config.fbWidth) (py : Fin Config.fbHeight) :
    Framebuffer.lit (drawn x y n s).fb px py = true ↔
      ¬ (Framebuffer.lit s.fb px py = true ↔ SpriteCovers s (s.readV x) (s.readV y) n.toNat px py) := by
  rw [← rowsCover_iff_spriteCovers (hr.imp_left (congrArg BitVec.toNat))]
  exact lit_drawSprite _ _ _ _ _ px py (Nat.le_of_lt_succ n.isLt)

/-- The flag of DRW: some covered pixel was lit before. -/
theorem readV_drawn_vf_eq_one (hr : n = 0 ∨ RangeExists s.i n.toNat) : (drawn x y n s).readV vf = 1 ↔
    ∃ px py, Framebuffer.lit s.fb px py = true ∧ SpriteCovers s (s.readV x) (s.readV y) n.toNat px py := by
  rw [readV_drawn_vf, flagByte_eq_one, drwCanvas, collision_drawSprite _ _ _ _ _ (Nat.le_of_lt_succ n.isLt)]
  simp only [Bool.false_eq_true, false_or, rowsCover_iff_spriteCovers (hr.imp_left (congrArg BitVec.toNat))]

/-- DRW writes neither memory nor I, so the next sprite from the same place covers the same pixels. -/
theorem spriteCovers_drawn : SpriteCovers (drawn x y n s) = SpriteCovers s := rfl

end

/-- Settles O37: the canvas DRW draws is the sprite's set of pixels, inverted, and its collision bit. -/
theorem drawXorsTheSpriteWithWrapAndCollision : Obligations.DrawXorsTheSpriteWithWrapAndCollision :=
  ⟨decodesTo_drw, fun _ _ _ _ hr => ⟨_, exec_drw_of_exists hr, lit_drawn hr, readV_drawn_vf_cases,
    readV_drawn_vf_eq_one hr, rfl, rfl, fun _ => readV_drawn_other, sameExcept_of_taking rfl⟩⟩

/-- Settles O38: the second sprite covers the same pixels. Inverting them twice restores each, and a covered pixel is lit
before the second drawing iff it was unlit before the first. -/
theorem drawTwiceRestoresTheFramebuffer : Obligations.DrawTwiceRestoresTheFramebuffer := by
  intro x y n s t h hx hy
  obtain ⟨hr, rfl⟩ := exec_drw_next h
  have hr' : n = 0 ∨ RangeExists (drawn x y n s).i n.toNat := hr
  refine ⟨_, exec_drw_of_exists hr', Framebuffer.ext_lit fun px py => ?_, ?_, readV_drawn_vf_cases⟩
  · rw [Bool.eq_iff_iff, lit_drawn hr', lit_drawn hr, hx, hy, spriteCovers_drawn]
    tauto
  · refine (readV_drawn_vf_eq_one hr').trans (exists_congr fun px => exists_congr fun py => ?_)
    rw [lit_drawn hr, hx, hy, spriteCovers_drawn, ← Bool.not_eq_true]
    tauto

end Sys2Proof.Machine

/-! PROOFS. Ticks, the wait for a key, RESET and LOAD (R38, R173, R178, R207). -/

namespace Sys2Proof.Machine

/-! ### TICK -/

theorem tone_eq_decide (s : State) : s.tone = decide (s.st = 1) := by
  rw [Bool.eq_iff_iff, tone_eq_true, decide_eq_true_eq]

/-- Settles O44: both timers take one count-down step, and the reply is the tone before it. -/
theorem tickCountsDownEachTimerAndSamplesTheTone : Obligations.TickCountsDownEachTimerAndSamplesTheTone :=
  fun s => ⟨congrArg Reply.tone (tone_eq_decide s), toNat_countDown s.dt, toNat_countDown s.st, sameExcept_of_taking rfl⟩

theorem tone_eq_decide_toNat (s : State) : s.tone = decide (s.st.toNat = 1) :=
  (tone_eq_decide s).trans (decide_eq_decide.mpr BitVec.toNat_inj.symm)

theorem runEvents_replicate_tick_succ (s : State) (m : Nat) :
    State.runEvents s (List.replicate (m + 1) .tick) =
      ((State.runEvents s.tick (List.replicate m .tick)).1,
        .tone s.tone :: (State.runEvents s.tick (List.replicate m .tick)).2) := rfl

/-- Settles O45: the first reply is the tone of this state, and the others are those of the state one tick on, where each
timer is one less, floored at 0. -/
theorem exactlyOneToneSampleInARunOfTicks : Obligations.ExactlyOneToneSampleInARunOfTicks := by
  intro m
  induction m with
  | zero => exact fun s => ⟨rfl, rfl, rfl⟩
  | succ m ih =>
    intro s
    obtain ⟨hreplies, hst, hdt⟩ := ih s.tick
    rw [State.tick_st, toNat_countDown] at hreplies hst
    rw [State.tick_dt, toNat_countDown] at hdt
    rw [runEvents_replicate_tick_succ]
    refine ⟨?_, hst.trans (by omega), hdt.trans (by omega)⟩
    rw [hreplies, List.range_succ_eq_map, List.map_cons, List.map_map]
    refine congrArg₂ List.cons (congrArg Reply.tone (tone_eq_decide_toNat s)) (List.map_congr_left fun k _ => ?_)
    refine congrArg Reply.tone (decide_eq_decide.mpr ?_)
    omega

/-! ### LD Vx, K -/

/-- Settles O47: the wait answers a `setV` of the lowest pressed key, or the state itself. -/
theorem waitForKeyReportsTheLowestPressedKey : Obligations.WaitForKeyReportsTheLowestPressedKey := by
  refine ⟨decodesTo_ldVxK, fun x k s hk hlow => ?_, fun x s hnone => execLdVxK_of_none (lowestKey_none.mpr hnone) x⟩
  have hexec : exec (.ldVxK x) s = .next (s.setV x (k.setWidth 8)).advance :=
    execLdVxK_of_some (lowestKey_some.mpr ⟨hk, hlow⟩) x
  obtain ⟨t, ht, hx, hpc, hother, hsame⟩ := exec_of_setV hexec
  exact ⟨t, ht, by rw [hx, BitVec.toNat_setWidth_of_le (by decide)], hpc, hother, hsame⟩

/-! ### RESET -/

/-- Above the font table an unlisted address reads as 0 (R38). -/
theorem background_of_le {a : Nat} (h : fontTable.length ≤ a) : Memory.background a = 0 :=
  List.getD_eq_default fontTable 0 h

/-- Settles O49: the reset state is written out, and its empty memory list reads as the font table over zeros. -/
theorem resetStateIsZeroWithTheFontInstalled : Obligations.ResetStateIsZeroWithTheFontInstalled := by
  exact ⟨by decide, rfl, rfl, by decide, rfl, rfl, by decide, pixel_blank, rfl, rfl, rfl, rfl, fun _ _ => rfl,
    fun a ha _ => background_of_le ha, fun s => ⟨sameExcept_of_taking rfl, rfl⟩⟩

/-! ### LOAD -/

theorem handle_load_of_le {s : State} {bytes : List Byte} (h : bytes.length ≤ Config.maxRom) :
    s.handle (.load bytes) = (s.setMem (Memory.loadAt s.mem 0x200 bytes), .done) := by
  rw [State.handle, State.load, if_neg (Nat.not_lt.mpr h)]
  rfl

theorem handle_load_of_gt {s : State} {bytes : List Byte} (h : Config.maxRom < bytes.length) :
    s.handle (.load bytes) = (s, .fault (.loadError bytes.length)) := by
  rw [State.handle, State.load, if_pos h]
  rfl

/-- Settles O50: the loader's bytes read back where they were written, and a ROM too long is refused before any write. -/
theorem loadWritesTheRomOrRefusesIt : Obligations.LoadWritesTheRomOrRefusesIt := by
  refine fun bytes s hwf => ⟨fun hlen => ?_, handle_load_of_gt⟩
  have hread := Memory.read_loadAt hwf (a := 0x200) (bs := bytes) (by simp only [Config.memSize]; omega)
  rw [handle_load_of_le hlen]
  refine ⟨rfl, fun k hk => ?_, fun a ha => ?_, sameExcept_of_taking rfl⟩
  · rw [State.setMem_mem, hread, if_pos (by omega), Nat.add_sub_cancel_left]
  · rw [State.setMem_mem, hread, if_neg (by omega)]

end Sys2Proof.Machine
